-- ==== Sys2Proof/Config.lean ====
section
/-! DEFINITION. The constants of 00_scope.md R7 and R8, and the free values where the spec leaves
one open. The constants are hardwired: no operation writes them (10_state.md R16). -/

namespace Sys2Proof.Config

/-- A head pulse strictly longer than this is TooLong (00_scope.md R7). -/
abbrev maxPulse : Nat := 1200
/-- Smallest duration classified Sync, and lower bound of an in-range sync tail (R7). -/
abbrev syncMin : Nat := 500
/-- Largest duration accepted as a sync tail (R7). -/
abbrev syncMax : Nat := 670
/-- Smallest duration classified OneBit (R7). -/
abbrev oneMin : Nat := 380
/-- Smallest duration classified ZeroBit (R7). -/
abbrev zeroMin : Nat := 190

/-- Encoder widths, exact integers (R7, 90_conflicts.md C4). -/
abbrev syncHigh : Nat := 662
abbrev syncLow : Nat := 564
abbrev oneHigh : Nat := 436
abbrev oneLow : Nat := 180
abbrev zeroHigh : Nat := 245
abbrev zeroLow : Nat := 366
abbrev stopHigh : Nat := 100

/-- Data bits are accepted only at exactly this sync count (R7). -/
abbrev syncRequired : Nat := 4
/-- Bytes of a packet (R7). -/
abbrev frameBytes : Nat := 7
/-- Bytes of backing storage of the bit accumulator (R7). -/
abbrev bufCap : Nat := 25
/-- Subtracted from the raw temperature (R7). -/
abbrev tempOffset : Nat := 1024
/-- Width of a duration on a port and in a command word (R8, decision D2). -/
abbrev durW : Nat := 16

/-- The signature that ASSEMBLE writes (R8; the spec's decision D19; log entry 15). -/
abbrev signature : BitVec 8 := 0x44

/-- Free value: how far the idle gap exceeds its least value. No body, so nothing can be proved of it
(00_scope.md R8, decision D16; log entry 5). -/
opaque idleGapExcess : Nat

/-- `IDLE_GAP`, any natural number above `MAX_PULSE` (00_scope.md R8, decision D16; log entry 5). -/
def idleGap : Nat := maxPulse + 1 + idleGapExcess

/-- Free value: the order, numbered 0 to 5, in which the encoder performs several transfers of one clock cycle, given
the number of the cycle. 10_state.md R23 says they are totally ordered and not in which order (log entry 14). -/
opaque encTransferOrder : Nat → Fin 6

/-- Free value: what the result ports show in a cycle in which no FEED completes, one of the six results numbered 0
to 5, given the number of the cycle. 10_state.md R23 gives `res_code` only for a FEED that completes (log entry 21). -/
opaque resultBetweenFeeds : Nat → Fin 6

/-- Free value: `enc_dur` while `enc_valid` is 0, given the number of the cycle (10_state.md R23 is silent; log
entry 18). -/
opaque encDurUndriven : Nat → BitVec 16

/-- Free value: `enc_level` while `enc_valid` is 0, given the number of the cycle (10_state.md R23 is silent; log
entry 18). -/
opaque encLevelUndriven : Nat → Bool

/-- Free value: what the 16 bits of `enc_dur` show of a duration that they cannot hold. IDLE_GAP has no upper bound
(00_scope.md R8) and the spec states no such port value (log entry 18). -/
opaque durationTooWide : Nat → BitVec 16

end Sys2Proof.Config
end

