-- ==== Sys2Proof/Word.lean ====
section
/-! DEFINITION. The word types of the core: bytes, 7-byte packets, and the two words that the outside
presents whole. No behaviour stands here. -/

namespace Sys2Proof

/-- A byte, bit 7 the most significant (00_scope.md R9). -/
abbrev Byte := BitVec 8

/-- A packet is "exactly 7 bytes" (30_encoding.md R50). Byte 0 is the first one sent (20_memory.md R32). -/
structure Packet where
  b0 : Byte
  b1 : Byte
  b2 : Byte
  b3 : Byte
  b4 : Byte
  b5 : Byte
  b6 : Byte
  deriving DecidableEq, Repr

/-- The packet of seven zero bytes. -/
def Packet.zero : Packet := ⟨0, 0, 0, 0, 0, 0, 0⟩

/-- The 60-bit command word: `op` in bits 59 to 56, `arg` in bits 55 to 0 (30_encoding.md R60). -/
abbrev CommandWord := BitVec 60

/-- The 56-bit view of a packet, byte 0 in bits 55 to 48 (20_memory.md R34, 30_encoding.md R51). -/
abbrev PacketWord := BitVec 56

/-- A word of the opcode table: a command, or the packet pattern (30_encoding.md R45 (d), (e)). -/
inductive TableWord where
  | command (w : CommandWord)
  | packet (w : PacketWord)
  deriving DecidableEq, Repr

end Sys2Proof
end

