-- ==== Sys2Proof/Syntax.lean ====
section
/-! DEFINITION. One constructor for each row of spec/opcode_table.json: the thirteen operations of
30_encoding.md R60, the three reserved operation codes, and the packet pattern. -/

namespace Sys2Proof

/-- The instructions. A duration is a natural number at the transaction level (00_scope.md R6, R8); that it
fits the 16 bits of a command word is WellFormed's check. -/
inductive Instr where
  /-- 40_classifier.md R65. -/
  | classify (d : Nat)
  /-- 41_decoder.md R72. -/
  | feed (d : Nat)
  /-- 41_decoder.md R84. -/
  | reset
  /-- 41_decoder.md R85. -/
  | getframe
  /-- 42_validator.md R90. -/
  | parity (b : Byte)
  /-- 42_validator.md R91. -/
  | checksum (p : Packet)
  /-- 42_validator.md R93. -/
  | extract (p : Packet)
  /-- 42_validator.md R92. -/
  | validate (p : Packet)
  /-- 43_encoder.md R105. -/
  | encode (p : Packet)
  /-- 43_encoder.md R108. -/
  | encLoad (p : Packet)
  /-- 43_encoder.md R109. -/
  | encNext
  /-- 43_encoder.md R110. -/
  | encRestart
  /-- 43_encoder.md R112. -/
  | assemble (channel : BitVec 2) (sensorId : BitVec 13) (humidity : BitVec 7) (temperatureRaw : BitVec 11)
  /-- Reserved operation code 0 (30_encoding.md R55 (g)). -/
  | reserved0
  /-- Reserved operation code 14 (30_encoding.md R55 (g)). -/
  | reserved14
  /-- Reserved operation code 15 (30_encoding.md R55 (g)). -/
  | reserved15
  /-- The packet pattern: a 56-bit packet word, data and no operation (30_encoding.md R51; log entry 7). -/
  | packet (p : Packet)
  deriving DecidableEq, Repr

/-- The rows of the opcode table, without their operands. -/
inductive Opcode where
  | classify | feed | reset | getframe | parity | checksum | extract | validate | encode
  | encLoad | encNext | encRestart | assemble | reserved0 | reserved14 | reserved15 | packet
  deriving DecidableEq, Repr

/-- The row an instruction belongs to. -/
def Instr.opcode : Instr → Opcode
  | .classify _ => .classify
  | .feed _ => .feed
  | .reset => .reset
  | .getframe => .getframe
  | .parity _ => .parity
  | .checksum _ => .checksum
  | .extract _ => .extract
  | .validate _ => .validate
  | .encode _ => .encode
  | .encLoad _ => .encLoad
  | .encNext => .encNext
  | .encRestart => .encRestart
  | .assemble _ _ _ _ => .assemble
  | .reserved0 => .reserved0
  | .reserved14 => .reserved14
  | .reserved15 => .reserved15
  | .packet _ => .packet

end Sys2Proof
end

