-- ==== Sys2Proof/WellFormed.lean ====
section
/-! DEFINITION. Which instructions a command word can carry. -/

namespace Sys2Proof

/-- A duration fits the 16 bits `arg[15:0]` of a command word (30_encoding.md R60, 00_scope.md R8). Every
other operand has its width in its type. -/
def Instr.wellFormed : Instr → Bool
  | .classify d => decide (d < 2 ^ Config.durW)
  | .feed d => decide (d < 2 ^ Config.durW)
  | .reset => true
  | .getframe => true
  | .parity _ => true
  | .checksum _ => true
  | .extract _ => true
  | .validate _ => true
  | .encode _ => true
  | .encLoad _ => true
  | .encNext => true
  | .encRestart => true
  | .assemble _ _ _ _ => true
  | .reserved0 => true
  | .reserved14 => true
  | .reserved15 => true
  | .packet _ => true

end Sys2Proof
end

