-- ==== Sys2Proof/Decode.lean ====
section
/-! DEFINITION. The decoder and the encoder of command words and packet words, from 30_encoding.md R60 and
R51 and spec/opcode_table.json. -/

namespace Sys2Proof

/-- The 56-bit view, byte 0 most significant (20_memory.md R34). -/
def Packet.toBits (p : Packet) : PacketWord :=
  p.b0 ++ p.b1 ++ p.b2 ++ p.b3 ++ p.b4 ++ p.b5 ++ p.b6

/-- The packet whose 56-bit view is given: byte 0 is bits 55 to 48, byte 6 bits 7 to 0
(20_memory.md R34, 30_encoding.md R60). -/
def Packet.ofBits (w : PacketWord) : Packet :=
  { b0 := w.extractLsb' 48 8
    b1 := w.extractLsb' 40 8
    b2 := w.extractLsb' 32 8
    b3 := w.extractLsb' 24 8
    b4 := w.extractLsb' 16 8
    b5 := w.extractLsb' 8 8
    b6 := w.extractLsb' 0 8 }

/-- Bits 59 to 56 of a command word (30_encoding.md R60). -/
def CommandWord.op (w : CommandWord) : BitVec 4 := BitVec.extractLsb' 56 4 w

/-- Bits 55 to 0 of a command word (30_encoding.md R60). -/
def CommandWord.arg (w : CommandWord) : BitVec 56 := BitVec.extractLsb' 0 56 w

/-- The duration operand, `arg[15:0]` (30_encoding.md R60). -/
def durationOf (arg : BitVec 56) : Nat := (arg.extractLsb' 0 16).toNat

/-- The instruction of a command word. Total: sixteen codes, thirteen operations and three reserved ones;
bits of `arg` that an operation does not name are ignored (30_encoding.md R60). -/
def decodeCommand (w : CommandWord) : Instr :=
  let arg := CommandWord.arg w
  match (CommandWord.op w).toNat with
  | 1 => .classify (durationOf arg)
  | 2 => .feed (durationOf arg)
  | 3 => .reset
  | 4 => .getframe
  | 5 => .parity (arg.extractLsb' 0 8)
  | 6 => .checksum (Packet.ofBits arg)
  | 7 => .extract (Packet.ofBits arg)
  | 8 => .validate (Packet.ofBits arg)
  | 9 => .encode (Packet.ofBits arg)
  | 10 => .encLoad (Packet.ofBits arg)
  | 11 => .encNext
  | 12 => .encRestart
  | 13 => .assemble (arg.extractLsb' 31 2) (arg.extractLsb' 18 13) (arg.extractLsb' 11 7) (arg.extractLsb' 0 11)
  | 14 => .reserved14
  | 15 => .reserved15
  | _ => .reserved0

/-- The instruction of a word of the table. -/
def decode : TableWord → Instr
  | .command w => decodeCommand w
  | .packet w => .packet (Packet.ofBits w)

/-- Why a raw bit string is no word of the table. -/
inductive DecodeError where
  /-- Neither a command word nor a packet word has this many bits (30_encoding.md R45). -/
  | noSuchWidth (nbits : Nat)
  /-- A bit above the word's most significant bit is set. -/
  | bitsAboveWord (nbits w : Nat)
  deriving DecidableEq, Repr

/-- The word of the table that `w`, written in `nbits` bits, is. A command word has 60 bits, in whole bytes
64 with the four above it zero; a packet word has 56 (30_encoding.md R45, R60; log entry 17). -/
def tableWord (nbits w : Nat) : Except DecodeError TableWord :=
  if nbits = 56 then
    if w < 2 ^ 56 then .ok (.packet (BitVec.ofNat 56 w)) else .error (.bitsAboveWord nbits w)
  else if nbits = 60 ∨ nbits = 64 then
    if w < 2 ^ 60 then .ok (.command (BitVec.ofNat 60 w)) else .error (.bitsAboveWord nbits w)
  else .error (.noSuchWidth nbits)

/-- The decoder on raw bits: total, and rejecting by name. -/
def decodeRaw (nbits w : Nat) : Except DecodeError Instr :=
  match tableWord nbits w with
  | .ok t => .ok (decode t)
  | .error e => .error e

/-- What the decoder reads from an instruction whose bits are `w`, numbered as the opcode table numbers
them. -/
def decodeTableWord (nbits w : Nat) : Option Instr :=
  match decodeRaw nbits w with
  | .ok i => some i
  | .error _ => none

/-- The command word with a given code and argument (30_encoding.md R60). -/
def command (op : BitVec 4) (arg : BitVec 56) : TableWord := .command (op ++ arg)

/-- A duration in `arg[15:0]`, the bits above it zero. -/
def durationArg (d : Nat) : BitVec 56 := 0#40 ++ BitVec.ofNat 16 d

/-- The operands of ASSEMBLE in `arg[32:0]`, the bits above them zero (30_encoding.md R60). -/
def assembleArg (c : BitVec 2) (s : BitVec 13) (h : BitVec 7) (t : BitVec 11) : BitVec 56 :=
  0#23 ++ c ++ s ++ h ++ t

/-- The word of a well-formed instruction (30_encoding.md R60; the packet pattern R51). Bits that the
instruction does not name are written zero. -/
def encode : Instr → TableWord
  | .classify d => command 1 (durationArg d)
  | .feed d => command 2 (durationArg d)
  | .reset => command 3 0
  | .getframe => command 4 0
  | .parity b => command 5 (0#48 ++ b)
  | .checksum p => command 6 p.toBits
  | .extract p => command 7 p.toBits
  | .validate p => command 8 p.toBits
  | .encode p => command 9 p.toBits
  | .encLoad p => command 10 p.toBits
  | .encNext => command 11 0
  | .encRestart => command 12 0
  | .assemble c s h t => command 13 (assembleArg c s h t)
  | .reserved0 => command 0 0
  | .reserved14 => command 14 0
  | .reserved15 => command 15 0
  | .packet p => .packet p.toBits

/-- The bits of a command word that an operation names: its code, and its argument (30_encoding.md R60). -/
def namedBits : Opcode → CommandWord
  | .classify => 0xF0000000000FFFF
  | .feed => 0xF0000000000FFFF
  | .reset => 0xF00000000000000
  | .getframe => 0xF00000000000000
  | .parity => 0xF000000000000FF
  | .checksum => 0xFFFFFFFFFFFFFFF
  | .extract => 0xFFFFFFFFFFFFFFF
  | .validate => 0xFFFFFFFFFFFFFFF
  | .encode => 0xFFFFFFFFFFFFFFF
  | .encLoad => 0xFFFFFFFFFFFFFFF
  | .encNext => 0xF00000000000000
  | .encRestart => 0xF00000000000000
  | .assemble => 0xF000001FFFFFFFF
  | .reserved0 => 0xF00000000000000
  | .reserved14 => 0xF00000000000000
  | .reserved15 => 0xF00000000000000
  | .packet => 0

/-- A row of spec/opcode_table.json of format CMD: the words `w` with `w &&& mask = pattern`. -/
structure OpcodeRow where
  opcode : Opcode
  pattern : CommandWord
  mask : CommandWord
  deriving DecidableEq, Repr

/-- The sixteen CMD rows of spec/opcode_table.json, "match" and "mask" as the table has them. -/
def opcodeRows : List OpcodeRow :=
  [ ⟨.classify, 0x100000000000000, 0xF00000000000000⟩
  , ⟨.feed, 0x200000000000000, 0xF00000000000000⟩
  , ⟨.reset, 0x300000000000000, 0xF00000000000000⟩
  , ⟨.getframe, 0x400000000000000, 0xF00000000000000⟩
  , ⟨.parity, 0x500000000000000, 0xF00000000000000⟩
  , ⟨.checksum, 0x600000000000000, 0xF00000000000000⟩
  , ⟨.extract, 0x700000000000000, 0xF00000000000000⟩
  , ⟨.validate, 0x800000000000000, 0xF00000000000000⟩
  , ⟨.encode, 0x900000000000000, 0xF00000000000000⟩
  , ⟨.encLoad, 0xA00000000000000, 0xF00000000000000⟩
  , ⟨.encNext, 0xB00000000000000, 0xF00000000000000⟩
  , ⟨.encRestart, 0xC00000000000000, 0xF00000000000000⟩
  , ⟨.assemble, 0xD00000000000000, 0xF00000000000000⟩
  , ⟨.reserved0, 0x000000000000000, 0xF00000000000000⟩
  , ⟨.reserved14, 0xE00000000000000, 0xF00000000000000⟩
  , ⟨.reserved15, 0xF00000000000000, 0xF00000000000000⟩ ]

end Sys2Proof
end

