-- ==== Sys2Proof/Machine/State.lean ====
section
/-! DEFINITION. The state of the core as plain data: the decoder's five elements (10_state.md R11), the
encoder's three (R17), and three fields of the model's own: what the owner presents next, what the core
returned last, and the number of the clock cycle. -/

namespace Sys2Proof.Machine

/-! ### The decoder -/

/-- The seven values of the decoder's `state` register (10_state.md R11, R12). -/
inductive DecodeState where
  | unknown | awaitingHead | confirmSync | confirmOne | confirmZero | rejectPending | done
  deriving DecidableEq, Repr

/-- A memory: the bytes that differ from what an unlisted address reads as, addresses strictly rising. -/
abbrev Memory := List Host.Cell

/-- What an address that is not listed reads as: the spec's reset contents of `buf`, zero
(10_state.md R20, decision D8; log entry 12). -/
def Memory.unlisted : Byte := 0

/-- A decoder (10_state.md R11). -/
structure Decoder where
  /-- `state` (R12). -/
  state : DecodeState
  /-- `sync_count`, an unbounded natural number (R13; log entry 10). -/
  syncCount : Nat
  /-- `bit_count`, 0 to 7 (R11, R14). -/
  bitCount : Fin 8
  /-- `byte_index`, 0 to 24, an index below `BUF_CAP` (R11, R14). -/
  byteIndex : Fin 25
  /-- `buf[0..24]` (R11, 20_memory.md R30). -/
  buf : Memory
  deriving DecidableEq, Repr

/-- The reset state of a decoder (10_state.md R20). -/
def Decoder.atReset : Decoder :=
  { state := .unknown, syncCount := 0, bitCount := 0, byteIndex := 0, buf := [] }

/-! ### The encoder -/

/-- The sequencer (10_state.md R17). -/
structure Encoder where
  /-- `enc_pkt[0..6]`. -/
  pkt : Packet
  /-- `enc_idx`, 0 to 122. -/
  idx : Fin 123
  /-- `enc_loaded`. -/
  loaded : Bool
  deriving DecidableEq, Repr

/-- The encoder at power-on (10_state.md R17, R20). DESIGN CHOICE: the spec leaves `enc_pkt` unspecified; the
model holds zeros there, which no operation reads before a load (log entry 4). -/
def Encoder.atReset : Encoder :=
  { pkt := Packet.zero, idx := 0, loaded := false }

/-! ### What operations return -/

/-- The five categories of a duration (30_encoding.md R46). -/
inductive Category where
  | tooShort | zeroBit | oneBit | sync | tooLong
  deriving DecidableEq, Repr

/-- The causes of a rejection (60_exceptions.md R121). -/
inductive Cause where
  | tooLongPulse | syncTailOutOfRange | prematureDataBit | bufferOverflow
  deriving DecidableEq, Repr

/-- The result of a FEED, with the cause of a rejection (10_state.md R15, 60_exceptions.md R121). -/
inductive FeedResult where
  | cont | frameReady | rejected (cause : Cause)
  deriving DecidableEq, Repr

/-- What EXTRACT computes: the SensorReading with temperatureRaw (42_validator.md R93). Temperatures are exact
integers, tenths of a degree Celsius and hundredths of a degree Fahrenheit (R98, R99; log entry 19). -/
structure Reading where
  channel : BitVec 2
  sensorId : BitVec 13
  humidityPercent : BitVec 7
  temperatureRaw : BitVec 11
  tempC10 : Int
  tempF100 : Int
  signatureByte : Byte
  deriving DecidableEq, Repr

/-- What VALIDATE returns (42_validator.md R92, 60_exceptions.md R122). -/
inductive Validation where
  | ok (r : Reading) | parityMismatch (i : Fin 7) | checksumMismatch
  deriving DecidableEq, Repr

/-- The level of an encoder element (43_encoder.md R106). -/
inductive PulseLevel where
  | high | low
  deriving DecidableEq, Repr

/-- What ENC_NEXT returns (43_encoder.md R109). -/
structure Element where
  duration : Nat
  level : PulseLevel
  last : Bool
  deriving DecidableEq, Repr

/-- The fields of the packet pattern, by the letters of 30_encoding.md R51. -/
structure PacketLayout where
  /-- c -/
  channel : BitVec 2
  /-- i -/
  sensorId : BitVec 13
  /-- P of byte 1 -/
  parity1 : Bool
  /-- P of byte 2 -/
  parity2 : Bool
  /-- P of byte 3 -/
  parity3 : Bool
  /-- P of byte 4 -/
  parity4 : Bool
  /-- P of byte 5 -/
  parity5 : Bool
  /-- g -/
  signature : BitVec 7
  /-- h -/
  humidity : BitVec 7
  /-- u -/
  unused : BitVec 3
  /-- t -/
  temperatureRaw : BitVec 11
  /-- k -/
  checksum : Byte
  deriving DecidableEq, Repr

/-- What the core returns in one step (30_encoding.md R60, column "result"). -/
inductive Response where
  /-- No result: RESET, ENC_LOAD, ENC_RESTART, a reserved code, or nothing was presented. -/
  | none
  | category (c : Category)
  | fed (r : FeedResult)
  | frame (p : Option Packet)
  | parity (good : Bool)
  | checksum (good : Bool) (sum : Byte)
  | fields (r : Reading)
  | validation (v : Validation)
  | durations (ds : List Nat)
  | element (e : Option Element)
  | assembled (p : Packet)
  | layout (l : PacketLayout)
  deriving DecidableEq, Repr

/-! ### What the owner presents -/

/-- The input signals of one clock cycle (10_state.md R23). -/
structure PortIn where
  rst : Bool
  pulseValid : Bool
  pulseDur : BitVec 16
  decReset : Bool
  encLoad : Bool
  encPktIn : PacketWord
  encRestart : Bool
  encReady : Bool
  deriving DecidableEq, Repr

/-- What the owner can present in one step: a word of the command port (30_encoding.md R60), or one cycle of
the signal-level binding (10_state.md R23; log entries 2 and 14). -/
inductive Input where
  | word (w : TableWord)
  | signals (p : PortIn)
  deriving DecidableEq, Repr

/-! ### The machine -/

/-- The state of the core. `dec` and `enc` are the spec's state and share nothing (10_state.md R10). The others are
the model's own: what the owner presents next, in order (20_memory.md R37; log entry 2), what the last step returned
(10_state.md R15, R18 (e); log entry 1), and how many cycles of the signal-level binding have gone by, which nothing
reads but the free values of the ports (log entry 22). -/
structure State where
  dec : Decoder
  enc : Encoder
  input : List Input
  response : Response
  cycles : Nat
  deriving DecidableEq, Repr

/-- The spec gives the core no fault: an abnormal outcome is a rejection or a validation error, both results
after which the core goes on (60_exceptions.md R120, R128). Nothing raises one (log entry 20). -/
inductive Fault
  deriving DecidableEq, Repr

/-- Why a step has no next state. -/
inductive Refusal where
  /-- Raised by exec's arm of an instruction that has no meaning yet; safe. No arm raises it now. -/
  | notModelled (mnemonic : String)
  /-- Raised by FEED in `Done`: "a FEED in `Done` has no step" (41_decoder.md R83, 60_exceptions.md R130);
  safe (log entry 6). -/
  | feedInDone
  deriving DecidableEq, Repr

/-- The machine right after power-on (10_state.md R20): nothing fed, nothing loaded, nothing presented, nothing
returned. The value of `cycles` is a DESIGN CHOICE (log entry 22). -/
def State.reset : State :=
  { dec := Decoder.atReset, enc := Encoder.atReset, input := [], response := .none, cycles := 0 }

/-! ### Updates, one field each -/

/-- Record what the step returns. -/
def State.respond (s : State) (r : Response) : State := { s with response := r }

/-- Replace the decoder. -/
def State.withDec (s : State) (d : Decoder) : State := { s with dec := d }

/-- Replace the encoder. -/
def State.withEnc (s : State) (e : Encoder) : State := { s with enc := e }

/-- Replace what the owner presents next. -/
def State.withInput (s : State) (l : List Input) : State := { s with input := l }

/-- Count a clock cycle. -/
def State.tick (s : State) : State := { s with cycles := s.cycles + 1 }

end Sys2Proof.Machine
end

