-- ==== Sys2Proof/Machine/Operands.lean ====
section
/-! DEFINITION. The parts an operation takes an operand apart into: the bytes and data bits of a packet, its
bit fields, and the two temperatures. -/

namespace Sys2Proof.Machine

/-- Byte `i` of a packet, `p[i]` (42_validator.md, its header). -/
def Packet.byte (p : Packet) (i : Fin 7) : Byte :=
  match i with
  | 0 => p.b0
  | 1 => p.b1
  | 2 => p.b2
  | 3 => p.b3
  | 4 => p.b4
  | 5 => p.b5
  | 6 => p.b6

/-- Data bit `n` of a frame, `packet[n div 8][7 - (n mod 8)]` (20_memory.md R32). -/
def dataBit (p : Packet) (n : Fin 56) : Bool :=
  (Packet.byte p ⟨n.val / 8, by omega⟩).getLsbD (7 - n.val % 8)

/-- `bitrev8(b)`, the byte whose bit `i` is bit `7-i` of `b` (00_scope.md R9). -/
def bitrev8 (b : Byte) : Byte := b.reverse

/-- The low seven bits of a byte (00_scope.md R9). -/
def low7 (b : Byte) : BitVec 7 := b.extractLsb' 0 7

/-- `channel`, `p[0][7:6]` (42_validator.md R94). -/
def channelOf (p : Packet) : BitVec 2 := p.b0.extractLsb' 6 2

/-- `sensorId`, `p[0][5:0] ++ p[1][6:0]` (42_validator.md R93, R95). -/
def sensorIdOf (p : Packet) : BitVec 13 := p.b0.extractLsb' 0 6 ++ low7 p.b1

/-- `humidityPercent`, `p[3][6:0]` (42_validator.md R96). -/
def humidityOf (p : Packet) : BitVec 7 := low7 p.b3

/-- `temperatureRaw`, `p[4][3:0] ++ p[5][6:0]` (42_validator.md R93, R97). -/
def temperatureRawOf (p : Packet) : BitVec 11 := p.b4.extractLsb' 0 4 ++ low7 p.b5

/-- `temp_c10 = temperatureRaw - 1024`, tenths of a degree Celsius, a signed integer (42_validator.md R98). -/
def tempC10 (raw : BitVec 11) : Int := (raw.toNat : Int) - Config.tempOffset

/-- `temp_f100 = temp_c10 * 18 + 3200`, hundredths of a degree Fahrenheit (42_validator.md R99). -/
def tempF100 (raw : BitVec 11) : Int := tempC10 raw * 18 + 3200

/-- The letter of a channel code, none for the unmapped code 1 (30_encoding.md R54). -/
def channelLetter (c : BitVec 2) : Option Char :=
  match c.toNat with
  | 3 => some 'A'
  | 2 => some 'B'
  | 0 => some 'C'
  | _ => none

/-- The fields of the packet pattern (30_encoding.md R50, R51). -/
def packetLayout (p : Packet) : PacketLayout :=
  { channel := channelOf p
    sensorId := sensorIdOf p
    parity1 := p.b1.getLsbD 7
    parity2 := p.b2.getLsbD 7
    parity3 := p.b3.getLsbD 7
    parity4 := p.b4.getLsbD 7
    parity5 := p.b5.getLsbD 7
    signature := low7 p.b2
    humidity := humidityOf p
    unused := p.b4.extractLsb' 4 3
    temperatureRaw := temperatureRawOf p
    checksum := p.b6 }

end Sys2Proof.Machine
end

