-- ==== Sys2Proof/Machine/Flags.lean ====
section
/-! DEFINITION. The flag-like values: parity and checksum, the predicates the ports show, and the numeric codes
of categories, states, results, causes and validation statuses. The core stores none of them
(10_state.md R15). -/

namespace Sys2Proof.Machine

/-- `par7(b)`, the XOR of bits 6 to 0 of a byte (00_scope.md R9). -/
def par7 (b : Byte) : Bool :=
  b.getLsbD 0 ^^ b.getLsbD 1 ^^ b.getLsbD 2 ^^ b.getLsbD 3 ^^ b.getLsbD 4 ^^ b.getLsbD 5 ^^ b.getLsbD 6

/-- A byte is good when `par7(b) = b[7]` (42_validator.md R90). -/
def parityGood (b : Byte) : Bool := par7 b == b.getLsbD 7

/-- The sum of bytes 0 to 5 modulo 256 (42_validator.md R91). -/
def sum8 (p : Packet) : Byte :=
  BitVec.ofNat 8 (p.b0.toNat + p.b1.toNat + p.b2.toNat + p.b3.toNat + p.b4.toNat + p.b5.toNat)

/-- A packet's checksum is good when the sum is byte 6 (42_validator.md R91). -/
def checksumGood (p : Packet) : Bool := sum8 p == p.b6

/-- `frame_valid`, the predicate `state = Done` (10_state.md R15). -/
def frameValid (d : Decoder) : Bool := decide (d.state = .done)

/-- `pulse_ready`, `state != Done` (10_state.md R23). -/
def pulseReady (d : Decoder) : Bool := !frameValid d

/-- `enc_valid`: the sequencer has an element to give (10_state.md R23, 43_encoder.md R109). -/
def encValid (e : Encoder) : Bool := e.loaded && decide (e.idx.val ≤ 121)

/-- 30_encoding.md R56. -/
def Category.code : Category → BitVec 3
  | .tooShort => 0
  | .zeroBit => 1
  | .oneBit => 2
  | .sync => 3
  | .tooLong => 4

/-- 30_encoding.md R57. -/
def DecodeState.code : DecodeState → BitVec 3
  | .unknown => 0
  | .awaitingHead => 1
  | .confirmSync => 2
  | .confirmOne => 3
  | .confirmZero => 4
  | .rejectPending => 5
  | .done => 6

/-- 60_exceptions.md R121. -/
def Cause.code : Cause → BitVec 3
  | .tooLongPulse => 1
  | .syncTailOutOfRange => 2
  | .prematureDataBit => 3
  | .bufferOverflow => 4

/-- `res_code` (30_encoding.md R58). -/
def FeedResult.code : FeedResult → BitVec 2
  | .cont => 0
  | .frameReady => 1
  | .rejected _ => 2

/-- `res_cause`: the cause of a rejection, else 0 (10_state.md R23, 60_exceptions.md R121). -/
def FeedResult.causeCode : FeedResult → BitVec 3
  | .cont => 0
  | .frameReady => 0
  | .rejected c => Cause.code c

/-- The six results a FEED can have, by number. -/
def FeedResult.ofIndex (k : Fin 6) : FeedResult :=
  match k with
  | 0 => .cont
  | 1 => .frameReady
  | 2 => .rejected .tooLongPulse
  | 3 => .rejected .syncTailOutOfRange
  | 4 => .rejected .prematureDataBit
  | 5 => .rejected .bufferOverflow

/-- `enc_level`, 1 = high (10_state.md R23). -/
def PulseLevel.bit : PulseLevel → Bool
  | .high => true
  | .low => false

/-- A duration on a port of `DUR_W` = 16 bits. One that does not fit shows as a free value (10_state.md R23,
00_scope.md R8; log entry 18). -/
def durationOnPort (d : Nat) : BitVec 16 :=
  if d < 2 ^ Config.durW then BitVec.ofNat 16 d else Config.durationTooWide d

/-- The status of a validation (60_exceptions.md R122). -/
def Validation.status : Validation → BitVec 2
  | .ok _ => 0
  | .parityMismatch _ => 1
  | .checksumMismatch => 2

/-- The index that goes with a status: the bad byte with status 1, else 0 (60_exceptions.md R122). -/
def Validation.index : Validation → BitVec 3
  | .ok _ => 0
  | .parityMismatch i => BitVec.ofNat 3 i.val
  | .checksumMismatch => 0

end Sys2Proof.Machine
end

