-- ==== Sys2Proof/Machine/Ops.lean ====
section
/-! DEFINITION. The shared operations: reading and writing `buf`, the four accesses to it, `full_reset()`, and
the rejection that ends a FEED. -/

namespace Sys2Proof.Machine

/-! ### Memory -/

/-- The byte at an address (20_memory.md R30). The addresses that exist are 0 to 24, and the type has no
others. -/
def Memory.read (m : Memory) (i : Fin 25) : Byte :=
  match m with
  | [] => Memory.unlisted
  | c :: rest => if c.1 = i.val then c.2 else Memory.read rest i

/-- Store a byte, keeping the canonical form: a byte that equals what an unlisted address reads as is not
listed. -/
def Memory.write (m : Memory) (i : Fin 25) (v : Byte) : Memory :=
  match m with
  | [] => if v = Memory.unlisted then [] else [(i.val, v)]
  | c :: rest =>
    if i.val < c.1 then
      if v = Memory.unlisted then c :: rest else (i.val, v) :: c :: rest
    else if i.val = c.1 then
      if v = Memory.unlisted then rest else (i.val, v) :: rest
    else c :: Memory.write rest i v

/-- Every listed address is at least `lo` and below the capacity, addresses rise strictly, and no listed byte
equals what an unlisted address reads as. -/
def Memory.wfFrom (lo : Nat) : Memory → Bool
  | [] => true
  | c :: rest =>
    decide (lo ≤ c.1) && decide (c.1 < 25) && decide (c.2 ≠ Memory.unlisted) && Memory.wfFrom (c.1 + 1) rest

/-- The canonical form. -/
def Memory.wf (m : Memory) : Bool := Memory.wfFrom 0 m

/-- `MemRead(addr, n)` (00_scope.md R9): the `n` bytes from `addr` on, byte `addr` first. -/
def Memory.readBytes (m : Memory) (addr n : Nat) (h : addr + n ≤ 25) : List Byte :=
  List.ofFn fun k : Fin n => Memory.read m ⟨addr + k.val, by omega⟩

/-! ### The accesses to `buf` (20_memory.md R36) -/

/-- `trunc_8((b >> 1) | (v << 7))`: insert at the most significant position, drop the old bit 0
(41_decoder.md R79). -/
def insertBit (b : Byte) (v : Bool) : Byte := (b >>> 1) ||| (if v then 0x80 else 0)

/-- Bit insertion: a read-modify-write of one byte (20_memory.md R36 (a)). -/
def Memory.insertBitAt (m : Memory) (i : Fin 25) (v : Bool) : Memory :=
  Memory.write m i (insertBit (Memory.read m i) v)

/-- `buf[i] <- bitrev8(buf[i])`. -/
def Memory.reverseAt (m : Memory) (i : Fin 25) : Memory :=
  Memory.write m i (bitrev8 (Memory.read m i))

/-- Frame reversal of `buf[0]` to `buf[6]` (20_memory.md R36 (b), 41_decoder.md R80). -/
def Memory.reverseFrame (m : Memory) : Memory :=
  Memory.reverseAt (Memory.reverseAt (Memory.reverseAt (Memory.reverseAt (Memory.reverseAt (Memory.reverseAt
    (Memory.reverseAt m 0) 1) 2) 3) 4) 5) 6

/-- Clearing of all 25 bytes (20_memory.md R36 (c), 41_decoder.md R71). -/
def Memory.cleared : Memory := []

/-- Frame read, `MemRead(0, 7)` as a packet (20_memory.md R36 (d), 41_decoder.md R85). -/
def Memory.frame (m : Memory) : Packet :=
  { b0 := Memory.read m 0
    b1 := Memory.read m 1
    b2 := Memory.read m 2
    b3 := Memory.read m 3
    b4 := Memory.read m 4
    b5 := Memory.read m 5
    b6 := Memory.read m 6 }

/-! ### Reset and rejection -/

/-- `full_reset()` (41_decoder.md R71). It reads nothing. -/
def fullReset : Decoder :=
  { state := .unknown, syncCount := 0, bitCount := 0, byteIndex := 0, buf := Memory.cleared }

/-- `raise Rejected(cause)` (00_scope.md R9, 60_exceptions.md R124): the one exception mechanism of the decoder.
Nothing is saved, control goes nowhere, and there is no return operation (60_exceptions.md R125). -/
def raiseRejected (cause : Cause) : FeedResult × Decoder := (.rejected cause, fullReset)

end Sys2Proof.Machine
end

