-- ==== Sys2Proof/Machine/Classifier.lean ====
section
/-! DEFINITION. CLASSIFY (40_classifier.md). -/

namespace Sys2Proof.Machine

/-- The category of a duration, the tests in the spec's order (40_classifier.md R65). -/
def classify (d : Nat) : Category :=
  if d > Config.maxPulse then .tooLong
  else if d ≥ Config.syncMin then .sync
  else if d ≥ Config.oneMin then .oneBit
  else if d ≥ Config.zeroMin then .zeroBit
  else .tooShort

/-- CLASSIFY: returns the category, writes no state (40_classifier.md R65). -/
def execClassify (d : Nat) (s : State) : Host.Outcome State Fault Refusal :=
  .next (s.respond (.category (classify d)))

end Sys2Proof.Machine
end

