-- ==== Sys2Proof/Machine/DecoderFsm.lean ====
section
/-! DEFINITION. FEED, RESET and GETFRAME (41_decoder.md). -/

namespace Sys2Proof.Machine

/-- `HEAD(d)`, the head dispatch (41_decoder.md R74). -/
def headDispatch (d : Nat) (s : Decoder) : FeedResult × Decoder :=
  match classify d with
  | .tooLong => raiseRejected .tooLongPulse
  | .sync => (.cont, { s with state := .confirmSync })
  | .oneBit =>
    if s.syncCount ≠ Config.syncRequired then (.cont, { s with state := .rejectPending })
    else (.cont, { s with state := .confirmOne })
  | .zeroBit =>
    if s.syncCount ≠ Config.syncRequired then (.cont, { s with state := .rejectPending })
    else (.cont, { s with state := .confirmZero })
  | .tooShort => (.cont, { s with state := .awaitingHead })

/-- The end of a byte in APPEND: completion at the seventh byte (41_decoder.md R80), then the defensive bound
(R81; log entry 16), then the next byte. `s.buf` already holds the inserted bit. -/
def completeByte (s : Decoder) : FeedResult × Decoder :=
  let n := s.byteIndex.val + 1
  if n = Config.frameBytes then
    (.frameReady, { s with state := .done, bitCount := 0, byteIndex := 7, buf := Memory.reverseFrame s.buf })
  else if h : n < Config.bufCap then
    (.cont, { s with state := .awaitingHead, bitCount := 0, byteIndex := ⟨n, h⟩ })
  else raiseRejected .bufferOverflow

/-- `APPEND(v)`, bit insertion (41_decoder.md R79). -/
def append (v : Bool) (s : Decoder) : FeedResult × Decoder :=
  let s := { s with buf := Memory.insertBitAt s.buf s.byteIndex v }
  if h : s.bitCount.val + 1 < 8 then
    (.cont, { s with state := .awaitingHead, bitCount := ⟨s.bitCount.val + 1, h⟩ })
  else completeByte s

/-- FEED in `ConfirmSync` (41_decoder.md R75, R76, R77): too long a tail rejects, a short one counts a pair and is
read again as a head. -/
def syncTail (d : Nat) (s : Decoder) : FeedResult × Decoder :=
  if d > Config.syncMax then raiseRejected .syncTailOutOfRange
  else
    let s := { s with syncCount := s.syncCount + 1 }
    if d < Config.syncMin then headDispatch d s
    else (.cont, { s with state := .awaitingHead })

/-- FEED on a decoder (41_decoder.md R72): the result and the decoder after it, or nothing in `Done`, where a FEED
has no step (R83). -/
def feed (d : Nat) (s : Decoder) : Option (FeedResult × Decoder) :=
  match s.state with
  | .unknown => some (headDispatch d s)
  | .awaitingHead => some (headDispatch d s)
  | .confirmSync => some (syncTail d s)
  | .confirmOne => some (append true s)
  | .confirmZero => some (append false s)
  | .rejectPending => some (raiseRejected .prematureDataBit)
  | .done => none

/-- FEED (41_decoder.md R72). In `Done` it has no next state and no result (R83, 93_implementation_defined.md U1;
log entry 6). -/
def execFeed (d : Nat) (s : State) : Host.Outcome State Fault Refusal :=
  match feed d s.dec with
  | some (r, dec) => .next ((s.withDec dec).respond (.fed r))
  | none => .refused .feedInDone

/-- RESET (41_decoder.md R84): `full_reset()` from any state; the encoder is not touched. -/
def execReset (s : State) : Host.Outcome State Fault Refusal :=
  .next ((s.withDec fullReset).respond .none)

/-- GETFRAME (41_decoder.md R85): the seven bytes in `Done`, else nothing; no state is written. -/
def execGetframe (s : State) : Host.Outcome State Fault Refusal :=
  .next (s.respond (.frame (if frameValid s.dec then some (Memory.frame s.dec.buf) else none)))

end Sys2Proof.Machine
end

