-- ==== Sys2Proof/Machine/FrameEncoder.lean ====
section
/-! DEFINITION. ENCODE, ENC_LOAD, ENC_NEXT, ENC_RESTART and ASSEMBLE (43_encoder.md). -/

namespace Sys2Proof.Machine

/-! ### ENCODE -/

/-- The four sync pairs (43_encoder.md R105, step 1). -/
def preamble : List Nat :=
  [ Config.syncHigh, Config.syncLow, Config.syncHigh, Config.syncLow,
    Config.syncHigh, Config.syncLow, Config.syncHigh, Config.syncLow ]

/-- The pair of a data bit (43_encoder.md R105, step 2). -/
def bitPair (b : Bool) : List Nat :=
  if b then [Config.oneHigh, Config.oneLow] else [Config.zeroHigh, Config.zeroLow]

/-- The bits of a byte, most significant first (20_memory.md R32). -/
def bitsMsbFirst (b : Byte) : List Bool :=
  [ b.getLsbD 7, b.getLsbD 6, b.getLsbD 5, b.getLsbD 4, b.getLsbD 3, b.getLsbD 2, b.getLsbD 1, b.getLsbD 0 ]

/-- The bytes of a packet, the first sent first. -/
def packetBytes (p : Packet) : List Byte := [p.b0, p.b1, p.b2, p.b3, p.b4, p.b5, p.b6]

/-- The 56 data bits in order of transmission (20_memory.md R32). -/
def packetBits (p : Packet) : List Bool := (packetBytes p).flatMap bitsMsbFirst

/-- `ENCODE(p)`, the list `E[0]` to `E[121]` (43_encoder.md R105). It does not check `p`. -/
def encodePulses (p : Packet) : List Nat :=
  preamble ++ (packetBits p).flatMap bitPair ++ [Config.stopHigh, Config.idleGap]

/-- `ELEM(p, k)`, element `k` computed directly (43_encoder.md R106). -/
def elem (p : Packet) (k : Fin 122) : Nat :=
  if k.val < 8 then
    if k.val % 2 = 0 then Config.syncHigh else Config.syncLow
  else if h : k.val < 120 then
    if dataBit p ⟨(k.val - 8) / 2, by omega⟩ then
      if k.val % 2 = 0 then Config.oneHigh else Config.oneLow
    else
      if k.val % 2 = 0 then Config.zeroHigh else Config.zeroLow
  else if k.val = 120 then Config.stopHigh
  else Config.idleGap

/-- The level of element `k`: high if even, low if odd (43_encoder.md R106). -/
def levelOf (k : Nat) : PulseLevel := if k % 2 = 0 then .high else .low

/-! ### The sequencer -/

/-- ENC_LOAD on an encoder (43_encoder.md R108). -/
def loadPacket (p : Packet) : Encoder := { pkt := p, idx := 0, loaded := true }

/-- The element at `enc_idx`, nothing when none is loaded or the sequence is finished (43_encoder.md R109). -/
def currentElement (e : Encoder) : Option Element :=
  if h : e.idx.val ≤ 121 then
    if e.loaded then
      some { duration := elem e.pkt ⟨e.idx.val, by omega⟩
             level := levelOf e.idx.val
             last := decide (e.idx.val = 121) }
    else none
  else none

/-- The encoder after ENC_NEXT (43_encoder.md R109). It does not wrap around. -/
def advance (e : Encoder) : Encoder :=
  if h : e.idx.val ≤ 121 then
    if e.loaded then { e with idx := ⟨e.idx.val + 1, by omega⟩ } else e
  else e

/-- The encoder after ENC_RESTART (43_encoder.md R110). -/
def restart (e : Encoder) : Encoder := { e with idx := 0 }

/-! ### ASSEMBLE -/

/-- `withpar(v) = par7(v) ++ v` (43_encoder.md R112). -/
def withpar (v : BitVec 7) : Byte := BitVec.ofBool (par7 (v.setWidth 8)) ++ v

/-- `ASSEMBLE(channel, sensorId, humidity, temperatureRaw)` (43_encoder.md R112). -/
def assemble (c : BitVec 2) (sid : BitVec 13) (h : BitVec 7) (t : BitVec 11) : Packet :=
  let p : Packet :=
    { b0 := c ++ sid.extractLsb' 7 6
      b1 := withpar (sid.extractLsb' 0 7)
      b2 := withpar (low7 Config.signature)
      b3 := withpar h
      b4 := withpar (0#3 ++ t.extractLsb' 7 4)
      b5 := withpar (t.extractLsb' 0 7)
      b6 := 0 }
  { p with b6 := sum8 p }

/-! ### The meanings -/

/-- ENCODE (43_encoder.md R105). -/
def execEncode (p : Packet) (s : State) : Host.Outcome State Fault Refusal :=
  .next (s.respond (.durations (encodePulses p)))

/-- ENC_LOAD (43_encoder.md R108). -/
def execEncLoad (p : Packet) (s : State) : Host.Outcome State Fault Refusal :=
  .next ((s.withEnc (loadPacket p)).respond .none)

/-- ENC_NEXT (43_encoder.md R109). -/
def execEncNext (s : State) : Host.Outcome State Fault Refusal :=
  .next ((s.withEnc (advance s.enc)).respond (.element (currentElement s.enc)))

/-- ENC_RESTART (43_encoder.md R110). -/
def execEncRestart (s : State) : Host.Outcome State Fault Refusal :=
  .next ((s.withEnc (restart s.enc)).respond .none)

/-- ASSEMBLE (43_encoder.md R112). -/
def execAssemble (c : BitVec 2) (sid : BitVec 13) (h : BitVec 7) (t : BitVec 11) (s : State) :
    Host.Outcome State Fault Refusal :=
  .next (s.respond (.assembled (assemble c sid h t)))

end Sys2Proof.Machine
end

