-- ==== Sys2Proof/Machine/Reserved.lean ====
section
/-! DEFINITION. The rows of the opcode table that are no operation of 30_encoding.md R60: the three reserved codes
and the packet pattern. -/

namespace Sys2Proof.Machine

/-- "A command word with a reserved operation code performs no operation" (30_encoding.md R55 (g)): operation
code 0. -/
def execReserved0 (s : State) : Host.Outcome State Fault Refusal := .next (s.respond .none)

/-- Operation code 14 (30_encoding.md R55 (g)). -/
def execReserved14 (s : State) : Host.Outcome State Fault Refusal := .next (s.respond .none)

/-- Operation code 15 (30_encoding.md R55 (g)). -/
def execReserved15 (s : State) : Host.Outcome State Fault Refusal := .next (s.respond .none)

/-- A packet word is data and no operation: it changes no state of the core. DESIGN CHOICE: the response shows
its fields as the pattern of 30_encoding.md R51 lays them out (log entry 7). -/
def execPacket (p : Packet) (s : State) : Host.Outcome State Fault Refusal :=
  .next (s.respond (.layout (packetLayout p)))

end Sys2Proof.Machine
end

