-- ==== Sys2Proof/Machine/Validator.lean ====
section
/-! DEFINITION. PARITY, CHECKSUM, EXTRACT and VALIDATE (42_validator.md). All four are pure: they write no
state of the core. -/

namespace Sys2Proof.Machine

/-- The fields of a packet (42_validator.md R93). -/
def extract (p : Packet) : Reading :=
  { channel := channelOf p
    sensorId := sensorIdOf p
    humidityPercent := humidityOf p
    temperatureRaw := temperatureRawOf p
    tempC10 := tempC10 (temperatureRawOf p)
    tempF100 := tempF100 (temperatureRawOf p)
    signatureByte := p.b2 }

/-- The steps of VALIDATE in the spec's order: parity of bytes 1 to 5, then the checksum, then the reading
(42_validator.md R92). -/
def validate (p : Packet) : Validation :=
  if !parityGood p.b1 then .parityMismatch 1
  else if !parityGood p.b2 then .parityMismatch 2
  else if !parityGood p.b3 then .parityMismatch 3
  else if !parityGood p.b4 then .parityMismatch 4
  else if !parityGood p.b5 then .parityMismatch 5
  else if !checksumGood p then .checksumMismatch
  else .ok (extract p)

/-- PARITY (42_validator.md R90). -/
def execParity (b : Byte) (s : State) : Host.Outcome State Fault Refusal :=
  .next (s.respond (.parity (parityGood b)))

/-- CHECKSUM: good or bad, and the computed sum (42_validator.md R91, 30_encoding.md R60). -/
def execChecksum (p : Packet) (s : State) : Host.Outcome State Fault Refusal :=
  .next (s.respond (.checksum (checksumGood p) (sum8 p)))

/-- EXTRACT (42_validator.md R93). -/
def execExtract (p : Packet) (s : State) : Host.Outcome State Fault Refusal :=
  .next (s.respond (.fields (extract p)))

/-- VALIDATE (42_validator.md R92). A failure changes no state and carries no fields. -/
def execValidate (p : Packet) (s : State) : Host.Outcome State Fault Refusal :=
  .next (s.respond (.validation (validate p)))

end Sys2Proof.Machine
end

