-- ==== Sys2Proof/Machine/Dispatch.lean ====
section
/-! DEFINITION. The meaning of each instruction, one arm per constructor. -/

namespace Sys2Proof.Machine

def exec (i : Instr) (s : State) : Host.Outcome State Fault Refusal :=
  match i with
  | .classify d => Sys2Proof.Machine.execClassify d s
  | .feed d => Sys2Proof.Machine.execFeed d s
  | .reset => Sys2Proof.Machine.execReset s
  | .getframe => Sys2Proof.Machine.execGetframe s
  | .parity b => Sys2Proof.Machine.execParity b s
  | .checksum p => Sys2Proof.Machine.execChecksum p s
  | .extract p => Sys2Proof.Machine.execExtract p s
  | .validate p => Sys2Proof.Machine.execValidate p s
  | .encode p => Sys2Proof.Machine.execEncode p s
  | .encLoad p => Sys2Proof.Machine.execEncLoad p s
  | .encNext => Sys2Proof.Machine.execEncNext s
  | .encRestart => Sys2Proof.Machine.execEncRestart s
  | .assemble c sid h t => Sys2Proof.Machine.execAssemble c sid h t s
  | .reserved0 => Sys2Proof.Machine.execReserved0 s
  | .reserved14 => Sys2Proof.Machine.execReserved14 s
  | .reserved15 => Sys2Proof.Machine.execReserved15 s
  | .packet p => Sys2Proof.Machine.execPacket p s

end Sys2Proof.Machine
end

