-- ==== Sys2Proof/Machine/Ports.lean ====
section
/-! DEFINITION. The signal-level binding of 10_state.md R23: the output signals as functions of the state, and one
clock cycle as operations of the transaction level. It adds no behaviour. -/

namespace Sys2Proof.Machine

/-- The output signals, with the widths of the table of 10_state.md R23. -/
structure PortOut where
  pulseReady : Bool
  resValid : Bool
  resCode : BitVec 2
  resCause : BitVec 3
  frameValid : Bool
  frame : PacketWord
  dbgState : BitVec 3
  dbgSync : BitVec 3
  dbgBits : BitVec 3
  dbgBytes : BitVec 5
  valOk : Bool
  valErr : BitVec 2
  valIdx : BitVec 3
  chan : BitVec 2
  sensorId : BitVec 13
  humidity : BitVec 7
  tempRaw : BitVec 11
  tempC10 : BitVec 11
  tempF100 : BitVec 16
  signature : Byte
  encValid : Bool
  encDur : BitVec 16
  encLevel : Bool
  encLast : Bool
  deriving DecidableEq, Repr

/-- The result of the FEED that the last step completed, if it was one (`res_valid`, 10_state.md R23). -/
def fedResult (s : State) : Option FeedResult :=
  match s.response with
  | .fed r => some r
  | _ => none

/-- `dbg_sync`: the count saturated at 7 (10_state.md R13, R23). -/
def saturated (n : Nat) : BitVec 3 := BitVec.ofNat 3 (min n 7)

/-- The output signals of a state (10_state.md R23). VALIDATE and EXTRACT are wired to `frame`; `val_ok` qualifies
the fields (decision D15). R23 leaves open, and DESIGN CHOICE makes a free value of each: `res_code` (and with
`Rejected` its `res_cause`) while `res_valid` is 0, always one of the codes that are not reserved (log entry 21);
`enc_dur` and `enc_level` while `enc_valid` is 0, and `enc_dur` of a gap that 16 bits do not hold (log entry 18).
DEDUCED: `enc_last` is 0 while `enc_valid` is 0, since no element is there (log entry 18). -/
def portOut (s : State) : PortOut :=
  let p := Memory.frame s.dec.buf
  let v := validate p
  let r := extract p
  let e := currentElement s.enc
  let res := (fedResult s).getD (FeedResult.ofIndex (Config.resultBetweenFeeds s.cycles))
  { pulseReady := pulseReady s.dec
    resValid := (fedResult s).isSome
    resCode := FeedResult.code res
    resCause := FeedResult.causeCode res
    frameValid := frameValid s.dec
    frame := p.toBits
    dbgState := DecodeState.code s.dec.state
    dbgSync := saturated s.dec.syncCount
    dbgBits := BitVec.ofNat 3 s.dec.bitCount.val
    dbgBytes := BitVec.ofNat 5 s.dec.byteIndex.val
    valOk := decide (Validation.status v = 0)
    valErr := Validation.status v
    valIdx := Validation.index v
    chan := r.channel
    sensorId := r.sensorId
    humidity := r.humidityPercent
    tempRaw := r.temperatureRaw
    tempC10 := BitVec.ofInt 11 r.tempC10
    tempF100 := BitVec.ofInt 16 r.tempF100
    signature := r.signatureByte
    encValid := encValid s.enc
    encDur := match e with | some x => durationOnPort x.duration | none => Config.encDurUndriven s.cycles
    encLevel := match e with | some x => PulseLevel.bit x.level | none => Config.encLevelUndriven s.cycles
    encLast := match e with | some x => x.last | none => false }

/-- The three transfers of the encoder's ports (10_state.md R23). -/
inductive EncTransfer where
  | load | restart | next
  deriving DecidableEq, Repr

/-- Whether a transfer happens in a cycle; ENC_NEXT in one where `enc_valid` and `enc_ready` are both 1
(10_state.md R23). -/
def EncTransfer.requested (i : PortIn) (e : Encoder) : EncTransfer → Bool
  | .load => i.encLoad
  | .restart => i.encRestart
  | .next => encValid e && i.encReady

/-- One transfer: the operation it performs. -/
def EncTransfer.perform (i : PortIn) (t : EncTransfer) (e : Encoder) : Encoder :=
  match t with
  | .load => loadPacket (Packet.ofBits i.encPktIn)
  | .restart => Machine.restart e
  | .next => advance e

/-- The six orders of three transfers. -/
def EncTransfer.ordered (k : Fin 6) : List EncTransfer :=
  match k with
  | 0 => [.load, .restart, .next]
  | 1 => [.load, .next, .restart]
  | 2 => [.restart, .load, .next]
  | 3 => [.restart, .next, .load]
  | 4 => [.next, .load, .restart]
  | 5 => [.next, .restart, .load]

/-- The encoder's transfers of cycle `n`. They are totally ordered (10_state.md R23); which order several of one
cycle take is a free value (log entry 14). -/
def encCycle (n : Nat) (i : PortIn) (e : Encoder) : Encoder :=
  let order := EncTransfer.ordered (Config.encTransferOrder n)
  (order.filter (EncTransfer.requested i e)).foldl (fun x t => EncTransfer.perform i t x) e

/-- The decoder's transfer of one cycle, with the result of a FEED. RESET wins over a pulse of the same cycle, and
the pulse is not consumed (10_state.md R23, decision D24). In `Done` no FEED can happen. -/
def decCycle (i : PortIn) (d : Decoder) : Option FeedResult × Decoder :=
  if i.decReset then (none, fullReset)
  else if i.pulseValid then
    match feed i.pulseDur.toNat d with
    | some (r, d') => (some r, d')
    | none => (none, d)
  else (none, d)

/-- One clock cycle (10_state.md R23). `rst` is power-on: every part of the core in its reset state
(10_state.md R20). DESIGN CHOICE: an operation takes one cycle, the transfers of a cycle with `rst` are not performed,
and the result ports of a FEED show in the state after its cycle (log entry 14). -/
def cycle (i : PortIn) (s : State) : State :=
  if i.rst then (((s.withDec Decoder.atReset).withEnc Encoder.atReset).respond .none).tick
  else
    let r := decCycle i s.dec
    let res : Response := match r.1 with | some x => .fed x | none => .none
    (((s.withDec r.2).withEnc (encCycle s.cycles i s.enc)).respond res).tick

end Sys2Proof.Machine
end

