-- ==== Sys2Proof/Machine/Step.lean ====
section
/-! DEFINITION. One step: the core takes what the owner presents next and performs it. -/

namespace Sys2Proof.Machine

/-- One step. Operations are taken in the order the owner issues them, each exactly once (20_memory.md R37); when
nothing is presented nothing changes and nothing is returned (41_decoder.md R89; log entry 2). A word runs the
instruction it decodes to; a cycle of input signals performs its transfers (10_state.md R23). -/
def step (s : State) : Host.Outcome State Fault Refusal :=
  match s.input with
  | [] => .next (s.respond .none)
  | .word w :: rest => exec (decode w) (s.withInput rest)
  | .signals p :: rest => .next (cycle p (s.withInput rest))

/-- Present a word of the opcode table as what the owner issues next (log entry 3). A bit string that is no word
of the table changes nothing. -/
def State.withFetchWord (s : State) (nbits w : Nat) : State :=
  match tableWord nbits w with
  | .ok t => s.withInput (.word t :: s.input)
  | .error _ => s

end Sys2Proof.Machine
end

