-- ==== Sys2Proof/Machine/Pseudo.lean ====
section
/-! DEFINITION. The textual form of operations (30_encoding.md R61) and the pseudo-operations that expand to FEEDs
(R62). They have no meaning of their own. -/

namespace Sys2Proof.Machine

/-- The pseudo-operations (30_encoding.md R62). -/
inductive PseudoOp where
  | syncpair | bit1 | bit0 | byte (b : Byte) | preamble | stop | gap | frame (p : Packet)
  deriving DecidableEq, Repr

/-- `FEED` of each duration in turn. -/
def feeds (ds : List Nat) : List Instr := ds.map Instr.feed

/-- The expansion (30_encoding.md R62). -/
def PseudoOp.expand : PseudoOp → List Instr
  | .syncpair => feeds [Config.syncHigh, Config.syncLow]
  | .bit1 => feeds (bitPair true)
  | .bit0 => feeds (bitPair false)
  | .byte b => feeds ((bitsMsbFirst b).flatMap bitPair)
  | .preamble => feeds Machine.preamble
  | .stop => feeds [Config.stopHigh]
  | .gap => feeds [Config.idleGap]
  | .frame p => feeds (Machine.preamble ++ (packetBits p).flatMap bitPair)

/-- A line of a program: an operation, a pseudo-operation, or VALIDATE or EXTRACT without an argument, which apply
to the bytes that the last GETFRAME returned (30_encoding.md R61). -/
inductive ProgramLine where
  | op (i : Instr) | pseudo (q : PseudoOp) | validateLast | extractLast
  deriving DecidableEq, Repr

/-- The operations of a line, given the frame the last GETFRAME returned; none when the line needs a frame and
there is none. -/
def ProgramLine.operations (last : Option Packet) : ProgramLine → Option (List Instr)
  | .op i => some [i]
  | .pseudo q => some q.expand
  | .validateLast => last.map fun p => [Instr.validate p]
  | .extractLast => last.map fun p => [Instr.extract p]

/-- The arguments of a packet operand in decimal, byte 0 first. -/
def packetText (p : Packet) : String :=
  String.join ((packetBytes p).map fun b => " " ++ Nat.repr b.toNat)

/-- One operation a line, the mnemonic of R60 and its arguments in decimal (30_encoding.md R61). Reserved codes and
the packet pattern have no textual form. -/
def instrText : Instr → Option String
  | .classify d => some ("CLASSIFY " ++ Nat.repr d)
  | .feed d => some ("FEED " ++ Nat.repr d)
  | .reset => some "RESET"
  | .getframe => some "GETFRAME"
  | .parity b => some ("PARITY " ++ Nat.repr b.toNat)
  | .checksum p => some ("CHECKSUM" ++ packetText p)
  | .extract p => some ("EXTRACT" ++ packetText p)
  | .validate p => some ("VALIDATE" ++ packetText p)
  | .encode p => some ("ENCODE" ++ packetText p)
  | .encLoad p => some ("ENC_LOAD" ++ packetText p)
  | .encNext => some "ENC_NEXT"
  | .encRestart => some "ENC_RESTART"
  | .assemble c sid h t =>
    some ("ASSEMBLE " ++ Nat.repr c.toNat ++ ", " ++ Nat.repr sid.toNat ++ ", " ++ Nat.repr h.toNat ++ ", "
      ++ Nat.repr t.toNat)
  | .reserved0 => none
  | .reserved14 => none
  | .reserved15 => none
  | .packet _ => none

end Sys2Proof.Machine
end

