-- ==== Sys2Proof/Safety.lean ====
section
/-! DEFINITION. The terms claims are stated in: the invariants of reachable states, folds of FEED, runs of
operations, and the data bits a decoder has received. -/

namespace Sys2Proof.Safety

open Sys2Proof.Machine

/-! ### Invariants -/

/-- What holds in every reachable decoder state (10_state.md R22 (a) to (e), the first half of (f), and (g)), and
the canonical form of its memory. -/
abbrev DecoderInv (d : Decoder) : Prop :=
  (d.byteIndex.val ≤ 7 ∧ (d.byteIndex.val = 7 ↔ d.state = .done)) ∧
  (d.state = .done → d.bitCount.val = 0 ∧ d.syncCount = 4) ∧
  (d.state = .unknown →
    d.syncCount = 0 ∧ d.bitCount.val = 0 ∧ d.byteIndex.val = 0 ∧ ∀ i, Memory.read d.buf i = 0) ∧
  (d.state = .confirmOne ∨ d.state = .confirmZero → d.syncCount = 4) ∧
  (d.state = .rejectPending → d.syncCount ≠ 4) ∧
  (0 < d.byteIndex.val ∨ 0 < d.bitCount.val → 4 ≤ d.syncCount) ∧
  (∀ i : Fin 25, d.byteIndex.val < i.val ∨ 7 ≤ i.val → Memory.read d.buf i = 0) ∧
  Memory.wf d.buf = true

/-- An encoder that has handed out an element has a packet loaded (43_encoder.md R108 to R110). -/
abbrev EncoderInv (e : Encoder) : Prop := 0 < e.idx.val → e.loaded = true

/-- The invariant of the machine. -/
abbrev Inv (s : State) : Prop := DecoderInv s.dec ∧ EncoderInv s.enc

/-! ### Folds and runs -/

/-- The left fold of FEED over durations, with the results in order (20_memory.md R37). Nothing from the first FEED
issued in `Done` on. -/
def feedAll : List Nat → Decoder → Option (List FeedResult × Decoder)
  | [], d => some ([], d)
  | x :: xs, d =>
    match feed x d with
    | none => none
    | some (r, d') =>
      match feedAll xs d' with
      | none => none
      | some (rs, d'') => some (r :: rs, d'')

/-- A run of operations, in order (70_reset_and_hazards.md R152), with the responses in order. -/
def runOps : List Instr → State → Host.Outcome (List Response × State) Fault Refusal
  | [], s => .next ([], s)
  | i :: is, s =>
    match exec i s with
    | .fault f => .fault f
    | .refused r => .refused r
    | .next s' =>
      match runOps is s' with
      | .fault f => .fault f
      | .refused r => .refused r
      | .next (rs, s'') => .next (s'.response :: rs, s'')

/-- How many ENC_NEXTs of a list come after its last ENC_RESTART. -/
def nextsSinceRestart (ops : List Instr) : Nat :=
  ops.foldl (fun n i => if i = .encRestart then 0 else n + 1) 0

/-- The operations that the encoder's ports ask for in one cycle (10_state.md R23), in no particular order. -/
def encTransfers (i : PortIn) (s : State) : List Instr :=
  (if i.encLoad then [.encLoad (Packet.ofBits i.encPktIn)] else []) ++
  (if i.encRestart then [.encRestart] else []) ++
  (if i.encReady && (portOut s).encValid then [.encNext] else [])

/-! ### Received bits -/

/-- The data bits received since the last reset, after a FEED with result `r` in decoder `d`: a tail in ConfirmOne
or ConfirmZero adds its bit, a rejection forgets all (41_decoder.md R78, R79, R124). -/
def receivedAfter (bits : List Bool) (d : Decoder) (r : FeedResult) : List Bool :=
  match r with
  | .rejected _ => []
  | _ =>
    match d.state with
    | .confirmOne => bits ++ [true]
    | .confirmZero => bits ++ [false]
    | _ => bits

/-- A reachable decoder together with the data bits it has received (10_state.md R21). -/
inductive Received : Decoder → List Bool → Prop where
  | atReset : Received Decoder.atReset []
  | byReset {d : Decoder} {bits : List Bool} : Received d bits → Received fullReset []
  | byFeed {d d' : Decoder} {bits : List Bool} {x : Nat} {r : FeedResult} :
      Received d bits → feed x d = some (r, d') → Received d' (receivedAfter bits d r)

/-- How many bits have been inserted into byte `n div 8`, for a received bit `n` of an unfinished frame. -/
def insertedInto (d : Decoder) (n : Nat) : Nat :=
  if n / 8 < d.byteIndex.val then 8 else d.bitCount.val

/-- The accumulator holds these bits: while a frame is assembled the first-received of the `k` bits in a byte is at
position `8 - k` and the last at 7; in `Done` bit `n` is at `7 - n mod 8` (20_memory.md R33, 10_state.md R22 (f)). -/
def HoldsBits (d : Decoder) (bits : List Bool) : Prop :=
  8 * d.byteIndex.val + d.bitCount.val = bits.length ∧
  ∀ n (h : n < bits.length),
    (Memory.read d.buf (Fin.ofNat 25 (n / 8))).getLsbD
        (if d.state = .done then 7 - n % 8 else 8 - insertedInto d n + n % 8) = bits[n]

end Sys2Proof.Safety
end

