-- ==== Sys2Proof/Certificates/Slice0/Obligations.lean ====
section
/-! DEFINITION. The statements about the core, from the numbered rules of spec/. Each docstring names the rules.
`Decoder.atReset` and `State.reset` are what PowerOnState says they are. What an operation returns stands in the
model's own field `response` (log entry 1), and what is presented next in `input` (log entry 2). -/

open Sys2Proof Sys2Proof.Machine Sys2Proof.Safety

/-! ### Classifier -/

/-- 40_classifier.md R65: the five intervals, for every natural number; nothing but the response is written. -/
def Obligations.ClassifyGivesTheIntervalsCategory : Prop :=
  ∀ (d : Nat) (s : State),
    (1201 ≤ d → exec (.classify d) s = .next { s with response := .category .tooLong }) ∧
    (500 ≤ d → d ≤ 1200 → exec (.classify d) s = .next { s with response := .category .sync }) ∧
    (380 ≤ d → d ≤ 499 → exec (.classify d) s = .next { s with response := .category .oneBit }) ∧
    (190 ≤ d → d ≤ 379 → exec (.classify d) s = .next { s with response := .category .zeroBit }) ∧
    (d ≤ 189 → exec (.classify d) s = .next { s with response := .category .tooShort })

/-- 40_classifier.md R66 (an inference of the spec): the category depends on the duration alone, not on the state,
and its code grows with the duration. -/
def Obligations.ClassifyIsMonotoneAndStateless : Prop :=
  ∀ (d1 d2 : Nat) (s1 s2 : State), d1 ≤ d2 →
    ∃ c1 c2, exec (.classify d1) s1 = .next { s1 with response := .category c1 } ∧
      exec (.classify d2) s2 = .next { s2 with response := .category c2 } ∧
      (Category.code c1).toNat ≤ (Category.code c2).toNat ∧ (d1 = d2 → c1 = c2)

/-! ### Decoder: FEED -/

/-- 41_decoder.md R74: every case of a head pulse in AwaitingHead, at every sync count. The encoder, the bits
received and (but for TooLong) the counters are unchanged. -/
def Obligations.HeadPulseDispatch : Prop :=
  ∀ (d : Nat) (s : State), s.dec.state = .awaitingHead →
    (1201 ≤ d → exec (.feed d) s =
      .next { s with dec := Decoder.atReset, response := .fed (.rejected .tooLongPulse) }) ∧
    (500 ≤ d → d ≤ 1200 → exec (.feed d) s =
      .next { s with dec := { s.dec with state := .confirmSync }, response := .fed .cont }) ∧
    (380 ≤ d → d ≤ 499 → s.dec.syncCount = 4 → exec (.feed d) s =
      .next { s with dec := { s.dec with state := .confirmOne }, response := .fed .cont }) ∧
    (190 ≤ d → d ≤ 379 → s.dec.syncCount = 4 → exec (.feed d) s =
      .next { s with dec := { s.dec with state := .confirmZero }, response := .fed .cont }) ∧
    (190 ≤ d → d ≤ 499 → s.dec.syncCount ≠ 4 → exec (.feed d) s =
      .next { s with dec := { s.dec with state := .rejectPending }, response := .fed .cont }) ∧
    (d ≤ 189 → exec (.feed d) s = .next { s with response := .fed .cont })

/-- 41_decoder.md R73 (decision D4): the first pulse is processed, not discarded; a FEED in Unknown has exactly the
outcome it has in AwaitingHead, so a TooShort pulse leaves AwaitingHead and a TooLong one ends in Unknown. -/
def Obligations.FeedInUnknownActsAsInAwaitingHead : Prop :=
  ∀ (d : Nat) (s : State), s.dec.state = .unknown →
    exec (.feed d) s = exec (.feed d) { s with dec := { s.dec with state := .awaitingHead } } ∧
    (d ≤ 189 → exec (.feed d) s =
      .next { s with dec := { s.dec with state := .awaitingHead }, response := .fed .cont }) ∧
    (1201 ≤ d → exec (.feed d) s =
      .next { s with dec := Decoder.atReset, response := .fed (.rejected .tooLongPulse) })

/-- 41_decoder.md R75: a sync tail of 671 and above rejects, with this cause however long it is. -/
def Obligations.LongSyncTailRejects : Prop :=
  ∀ (d : Nat) (s : State), s.dec.state = .confirmSync → 671 ≤ d →
    exec (.feed d) s =
      .next { s with dec := Decoder.atReset, response := .fed (.rejected .syncTailOutOfRange) }

/-- 41_decoder.md R76: a sync tail of 500 to 670 counts a pair. -/
def Obligations.SyncTailInRangeCountsAPair : Prop :=
  ∀ (d : Nat) (s : State), s.dec.state = .confirmSync → 500 ≤ d → d ≤ 670 →
    exec (.feed d) s =
      .next { s with dec := { s.dec with state := .awaitingHead, syncCount := s.dec.syncCount + 1 },
                     response := .fed .cont }

/-- 41_decoder.md R77: a sync tail below 500 counts a pair anyway and is then read as a head with the new count;
the result is Continue in every case. -/
def Obligations.ShortSyncTailIsCountedAndRedispatched : Prop :=
  ∀ (d : Nat) (s : State), s.dec.state = .confirmSync → d ≤ 499 →
    exec (.feed d) s = exec (.feed d)
      { s with dec := { s.dec with state := .awaitingHead, syncCount := s.dec.syncCount + 1 } } ∧
    (380 ≤ d → s.dec.syncCount + 1 = 4 → exec (.feed d) s =
      .next { s with dec := { s.dec with state := .confirmOne, syncCount := 4 }, response := .fed .cont }) ∧
    (190 ≤ d → d ≤ 379 → s.dec.syncCount + 1 = 4 → exec (.feed d) s =
      .next { s with dec := { s.dec with state := .confirmZero, syncCount := 4 }, response := .fed .cont }) ∧
    (190 ≤ d → s.dec.syncCount + 1 ≠ 4 → exec (.feed d) s =
      .next { s with dec := { s.dec with state := .rejectPending, syncCount := s.dec.syncCount + 1 },
                     response := .fed .cont }) ∧
    (d ≤ 189 → exec (.feed d) s =
      .next { s with dec := { s.dec with state := .awaitingHead, syncCount := s.dec.syncCount + 1 },
                     response := .fed .cont })

/-- 41_decoder.md R78 and R79: in ConfirmOne and ConfirmZero a pulse of ANY duration inserts the pending bit at the top
of the in-progress byte, which shifts right; the other 24 bytes and the sync count keep their values. For the
insertions that complete no frame (SeventhByteCompletesTheFrame states the one that does, BufferOverflowIsUnreachable
that none rejects); a memory in its canonical form, which every step keeps. -/
def Obligations.DataTailInsertsTheBit : Prop :=
  ∀ (d : Nat) (s : State) (v : Bool),
    (s.dec.state = .confirmOne ∧ v = true ∨ s.dec.state = .confirmZero ∧ v = false) →
    Memory.wf s.dec.buf = true →
    (s.dec.bitCount.val < 7 ∨ s.dec.byteIndex.val < 6) →
    ∃ bc bi buf,
      exec (.feed d) s =
        .next { s with dec := { s.dec with state := .awaitingHead, bitCount := bc, byteIndex := bi, buf := buf },
                       response := .fed .cont } ∧
      (s.dec.bitCount.val < 7 → bc.val = s.dec.bitCount.val + 1 ∧ bi = s.dec.byteIndex) ∧
      (s.dec.bitCount.val = 7 → bc.val = 0 ∧ bi.val = s.dec.byteIndex.val + 1) ∧
      (Memory.read buf s.dec.byteIndex).getLsbD 7 = v ∧
      (∀ k, k < 7 → (Memory.read buf s.dec.byteIndex).getLsbD k =
        (Memory.read s.dec.buf s.dec.byteIndex).getLsbD (k + 1)) ∧
      ∀ j, j ≠ s.dec.byteIndex → Memory.read buf j = Memory.read s.dec.buf j

/-- 41_decoder.md R80: the 56th bit, whatever the pulse and whatever the bits, completes the frame: each of the seven
bytes is bit-reversed, the in-progress one after the insertion, and the rest of the buffer is unchanged (all zero,
and the sync count 4, in every reachable state). -/
def Obligations.SeventhByteCompletesTheFrame : Prop :=
  ∀ (d : Nat) (s : State) (v : Bool),
    (s.dec.state = .confirmOne ∧ v = true ∨ s.dec.state = .confirmZero ∧ v = false) →
    Memory.wf s.dec.buf = true → s.dec.bitCount.val = 7 → s.dec.byteIndex.val = 6 →
    ∃ buf,
      exec (.feed d) s =
        .next { s with dec := { s.dec with state := .done, bitCount := 0, byteIndex := 7, buf := buf },
                       response := .fed .frameReady } ∧
      (∀ (i : Fin 25) (k : Nat), i.val < 6 → k < 8 →
        (Memory.read buf i).getLsbD k = (Memory.read s.dec.buf i).getLsbD (7 - k)) ∧
      (Memory.read buf 6).getLsbD 0 = v ∧
      (∀ k, 1 ≤ k → k < 8 → (Memory.read buf 6).getLsbD k = (Memory.read s.dec.buf 6).getLsbD (8 - k)) ∧
      (∀ i : Fin 25, 7 ≤ i.val → Memory.read buf i = Memory.read s.dec.buf i) ∧
      (DecoderInv s.dec → s.dec.syncCount = 4 ∧ ∀ i : Fin 25, 7 ≤ i.val → Memory.read buf i = 0)

/-- 41_decoder.md R82: any pulse in RejectPending is rejected and used up. -/
def Obligations.RejectPendingRejectsAnyPulse : Prop :=
  ∀ (d : Nat) (s : State), s.dec.state = .rejectPending →
    exec (.feed d) s =
      .next { s with dec := Decoder.atReset, response := .fed (.rejected .prematureDataBit) }

/-- 41_decoder.md R83 (decision D6): a FEED in Done has no next state and no result, nothing that follows it has an
outcome, and `pulse_ready` is 0 in exactly this state, so that the transfer cannot take place on the ports. The name
of the refusal is the model's (log entry 6). -/
def Obligations.FeedInDoneHasNoStep : Prop :=
  ∀ (d : Nat) (s : State),
    (s.dec.state = .done → exec (.feed d) s = .refused .feedInDone ∧
      ∀ ops, runOps (.feed d :: ops) s = .refused .feedInDone) ∧
    ((portOut s).pulseReady = false ↔ s.dec.state = .done)

/-- 41_decoder.md R72, 60_exceptions.md R130: FEED completes in every state but Done, and writes the decoder and
nothing else of the core. -/
def Obligations.FeedCompletesOutsideDone : Prop :=
  ∀ (d : Nat) (s : State), s.dec.state ≠ .done →
    ∃ dec r, exec (.feed d) s = .next { s with dec := dec, response := .fed r }

/-- 60_exceptions.md R121, R124, R126: a rejection leaves the reset state and nothing of what was there, and the
state in which the FEED starts decides the cause. -/
def Obligations.RejectionResetsAndTheStateDecidesTheCause : Prop :=
  ∀ (d : Nat) (s t : State) (c : Cause), exec (.feed d) s = .next t → t.response = .fed (.rejected c) →
    t = { s with dec := Decoder.atReset, response := .fed (.rejected c) } ∧
    (c = .tooLongPulse → (s.dec.state = .unknown ∨ s.dec.state = .awaitingHead) ∧ 1201 ≤ d) ∧
    (c = .syncTailOutOfRange → s.dec.state = .confirmSync ∧ 671 ≤ d) ∧
    (c = .prematureDataBit → s.dec.state = .rejectPending) ∧
    (c = .bufferOverflow → (s.dec.state = .confirmOne ∨ s.dec.state = .confirmZero) ∧
      s.dec.byteIndex.val = 24 ∧ s.dec.bitCount.val = 7)

/-- 10_state.md R13: the sync count is counted up by a FEED in ConfirmSync that does not reject and by nothing else a
FEED does; a rejection clears it. -/
def Obligations.SyncCountCountsConfirmSyncFeeds : Prop :=
  ∀ (d : Nat) (s t : State), exec (.feed d) s = .next t →
    ((∃ c, t.response = .fed (.rejected c)) → t.dec.syncCount = 0) ∧
    ((∀ c, t.response ≠ .fed (.rejected c)) →
      t.dec.syncCount = if s.dec.state = .confirmSync then s.dec.syncCount + 1 else s.dec.syncCount)

/-- 92_eei_decisions.md D2, 10_state.md R23: a front end that saturates at any value above MAX_PULSE gives the same
behaviour as an unbounded one. -/
def Obligations.SaturatedDurationsActAlike : Prop :=
  ∀ (d n : Nat) (s : State), 1201 ≤ n → exec (.feed (min d n)) s = exec (.feed d) s

/-- 10_state.md R13 (an inference of the spec; decision D5, log entry 10): a sync counter that saturates at any value
of 5 or more is indistinguishable from the unbounded one. -/
def Obligations.SaturatingSyncCounterIsIndistinguishable : Prop :=
  ∀ (cap x : Nat) (s t : State), 5 ≤ cap → exec (.feed x) s = .next t →
    ∃ t', exec (.feed x) { s with dec := { s.dec with syncCount := min cap s.dec.syncCount } } = .next t' ∧
      t'.response = t.response ∧ t'.enc = t.enc ∧ t'.input = t.input ∧
      t'.dec = { t.dec with syncCount := t'.dec.syncCount } ∧
      min cap t'.dec.syncCount = min cap t.dec.syncCount

/-! ### Decoder: RESET, GETFRAME, reset state -/

/-- 41_decoder.md R84: RESET from any state; doing it twice leaves the same state; GETFRAME then returns nothing. -/
def Obligations.ResetFromAnyState : Prop :=
  ∀ s : State, ∃ t,
    exec .reset s = .next t ∧ t = { s with dec := Decoder.atReset, response := .none } ∧
    exec .reset t = .next t ∧ exec .getframe t = .next { t with response := .frame none }

/-- 41_decoder.md R85 (decision D7): the seven bytes in Done, nothing elsewhere, no state written. -/
def Obligations.GetFrameOnlyInDone : Prop :=
  ∀ s : State,
    (s.dec.state = .done → ∃ p, exec .getframe s = .next { s with response := .frame (some p) } ∧
      ∀ i : Fin 7, Packet.byte p i = Memory.read s.dec.buf (Fin.castLE (Nat.le_add_right 7 18) i)) ∧
    (s.dec.state ≠ .done → exec .getframe s = .next { s with response := .frame none })

/-- 10_state.md R17, R20 (decisions D8, D23): the power-on values, and the three ways to the one decoder reset state;
neither RESET nor a rejection touches the encoder. Nothing is said of enc_pkt, whose value the spec leaves open. -/
def Obligations.PowerOnState : Prop :=
  State.reset.dec.state = .unknown ∧ State.reset.dec.syncCount = 0 ∧ State.reset.dec.bitCount.val = 0 ∧
  State.reset.dec.byteIndex.val = 0 ∧ (∀ i : Fin 25, Memory.read State.reset.dec.buf i = 0) ∧
  State.reset.enc.loaded = false ∧ State.reset.enc.idx.val = 0 ∧
  (∀ s, ∃ t, exec .reset s = .next t ∧ t.dec = State.reset.dec ∧ t.enc = s.enc) ∧
  (∀ d s t c, exec (.feed d) s = .next t → t.response = .fed (.rejected c) →
    t.dec = State.reset.dec ∧ t.enc = s.enc)

/-! ### Invariants -/

/-- 10_state.md R22 at reset. -/
def Obligations.ResetMeetsTheInvariant : Prop := Inv State.reset

/-- 10_state.md R22 (a) to (e), (f) first half, (g), the canonical form of memory, and that an advanced encoder is
loaded: every step keeps them, whatever is presented. -/
def Obligations.EveryStepKeepsTheInvariant : Prop :=
  ∀ s t : State, Inv s → step s = .next t → Inv t

/-- 41_decoder.md R81, 60_exceptions.md R123 (inferences of the spec): under the invariant the 25-byte bound never
fires, and ConfirmOne and ConfirmZero never reject. -/
def Obligations.BufferOverflowIsUnreachable : Prop :=
  ∀ (d : Nat) (s t : State), DecoderInv s.dec → exec (.feed d) s = .next t →
    t.response ≠ .fed (.rejected .bufferOverflow) ∧
    (s.dec.state = .confirmOne ∨ s.dec.state = .confirmZero → ∀ c, t.response ≠ .fed (.rejected c))

/-- 20_memory.md R33, 10_state.md R22 (f): the accumulator holds exactly the data bits received since the last reset,
reversed within each byte until the frame is complete, in natural order after. Every FEED keeps this under the decoder
invariant, a reset makes it true of no bits, and so it holds of every decoder that FEED and RESET reach. -/
def Obligations.ReceivedBitsStandInTheBuffer : Prop :=
  (∀ (x : Nat) (s t : State) (r : FeedResult) (bits : List Bool),
    DecoderInv s.dec → HoldsBits s.dec bits → exec (.feed x) s = .next t → t.response = .fed r →
    HoldsBits t.dec (receivedAfter bits s.dec r)) ∧
  (∀ s t : State, exec .reset s = .next t → HoldsBits t.dec []) ∧
  HoldsBits State.reset.dec [] ∧
  ∀ (d : Decoder) (bits : List Bool), Received d bits → HoldsBits d bits

/-! ### Sequences -/

/-- 41_decoder.md R87 (an inference of the spec), first sentence: elements 0 to 119 of any packet's sequence, fed to
a reset decoder, give 119 times Continue, then FrameReady, and the packet in natural order. -/
def Obligations.EncodedFrameIsDecoded : Prop :=
  ∀ p : Packet, ∃ d,
    feedAll ((encodePulses p).take 120) Decoder.atReset = some (List.replicate 119 .cont ++ [.frameReady], d) ∧
    d.state = .done ∧ Memory.frame d.buf = p

/-- 41_decoder.md R87, last sentence: the same frame with the first pulse dropped. -/
def Obligations.EncodedFrameIsDecodedWithoutItsFirstPulse : Prop :=
  ∀ p : Packet, ∃ d,
    feedAll (((encodePulses p).take 120).drop 1) Decoder.atReset =
      some (List.replicate 118 .cont ++ [.frameReady], d) ∧
    d.state = .done ∧ Memory.frame d.buf = p

/-- 41_decoder.md R88 (an inference of the spec): with other than four pairs a data-shaped head inserts no bit, and
the next pulse, whatever it is, is rejected. -/
def Obligations.DataBeforeFourPairsIsRejected : Prop :=
  ∀ (h x : Nat) (s : State), (s.dec.state = .awaitingHead ∨ s.dec.state = .unknown) → s.dec.syncCount ≠ 4 →
    190 ≤ h → h ≤ 499 →
    ∃ t, exec (.feed h) s = .next t ∧
      t = { s with dec := { s.dec with state := .rejectPending }, response := .fed .cont } ∧
      exec (.feed x) t = .next { s with dec := Decoder.atReset, response := .fed (.rejected .prematureDataBit) }

/-- 43_encoder.md R114 and 41_decoder.md R87 (inferences of the spec): validate(decode(encode(packet))) of an
assembled packet succeeds and returns the fields it was assembled from. -/
def Obligations.AssembledFieldsSurviveTransmission : Prop :=
  ∀ (c : BitVec 2) (sid : BitVec 13) (h : BitVec 7) (raw : BitVec 11) (s : State), ∃ p d r,
    exec (.assemble c sid h raw) s = .next { s with response := .assembled p } ∧
    feedAll ((encodePulses p).take 120) Decoder.atReset = some (List.replicate 119 .cont ++ [.frameReady], d) ∧
    exec .getframe { s with dec := d } = .next { s with dec := d, response := .frame (some p) } ∧
    exec (.validate p) s = .next { s with response := .validation (.ok r) } ∧
    r.channel = c ∧ r.sensorId = sid ∧ r.humidityPercent = h ∧ r.temperatureRaw = raw ∧
    r.tempC10 = (raw.toNat : Int) - 1024 ∧ r.tempF100 = ((raw.toNat : Int) - 1024) * 18 + 3200 ∧
    r.signatureByte = 0x44

/-- 70_reset_and_hazards.md R152: a run of operations has an outcome exactly when it contains no FEED issued in
Done. -/
def Obligations.RunIsDefinedExactlyWithoutFeedInDone : Prop :=
  ∀ (ops : List Instr) (s : State),
    (∃ r, runOps ops s = .next r) ↔
      ∀ pre d post, ops = pre ++ Instr.feed d :: post →
        ∀ rs t, runOps pre s = .next (rs, t) → t.dec.state ≠ .done

/-! ### Validator -/

/-- 42_validator.md R90: good exactly when the XOR of bits 0 to 6 is bit 7. That this is an even number of 1 bits is an
inference of the spec, marked there as derived from R90. -/
def Obligations.ParityIsAnEvenNumberOfOnes : Prop :=
  ∀ (b : Byte) (s : State), ∃ g,
    exec (.parity b) s = .next { s with response := .parity g } ∧
    (g = true ↔ ((List.range 7).foldl (fun x i => x ^^ b.getLsbD i) false) = b.getLsbD 7) ∧
    (g = true ↔ (List.range 8).countP (fun i => b.getLsbD i) % 2 = 0)

/-- 42_validator.md R91, 30_encoding.md R60: the sum modulo 256, and whether it is byte 6. That an 8-bit adder that
wraps gives the same sum is an inference of the spec, marked there as derived from R91. -/
def Obligations.ChecksumAnswersTheSumAndWhetherItMatches : Prop :=
  ∀ (p : Packet) (s : State), ∃ g sum,
    exec (.checksum p) s = .next { s with response := .checksum g sum } ∧
    sum.toNat = (p.b0.toNat + p.b1.toNat + p.b2.toNat + p.b3.toNat + p.b4.toNat + p.b5.toNat) % 256 ∧
    sum = p.b0 + p.b1 + p.b2 + p.b3 + p.b4 + p.b5 ∧ (g = true ↔ sum = p.b6)

/-- 42_validator.md R92 (decisions D15, D27): the lowest of bytes 1 to 5 that PARITY finds bad, then CHECKSUM, then the
reading that EXTRACT gives; nothing but the response is written. -/
def Obligations.ValidateReportsTheFirstFailure : Prop :=
  ∀ (p : Packet) (s : State),
    (∀ i : Fin 7, 1 ≤ i.val → i.val ≤ 5 →
      exec (.parity (Packet.byte p i)) s = .next { s with response := .parity false } →
      (∀ j : Fin 7, 1 ≤ j.val → j.val < i.val →
        exec (.parity (Packet.byte p j)) s = .next { s with response := .parity true }) →
      exec (.validate p) s = .next { s with response := .validation (.parityMismatch i) }) ∧
    ((∀ i : Fin 7, 1 ≤ i.val → i.val ≤ 5 →
      exec (.parity (Packet.byte p i)) s = .next { s with response := .parity true }) →
      ∀ sum,
        (exec (.checksum p) s = .next { s with response := .checksum false sum } →
          exec (.validate p) s = .next { s with response := .validation .checksumMismatch }) ∧
        (exec (.checksum p) s = .next { s with response := .checksum true sum } → ∃ r,
          exec (.validate p) s = .next { s with response := .validation (.ok r) } ∧
          exec (.extract p) s = .next { s with response := .fields r }))

/-- 42_validator.md R94 to R100, 30_encoding.md R52 (decision D13): each field as arithmetic on the bytes, for any
seven bytes. -/
def Obligations.ExtractComputesTheFields : Prop :=
  ∀ (p : Packet) (s : State), ∃ r,
    exec (.extract p) s = .next { s with response := .fields r } ∧
    r.channel.toNat = p.b0.toNat / 64 ∧
    r.sensorId.toNat = p.b0.toNat % 64 * 128 + p.b1.toNat % 128 ∧
    r.humidityPercent.toNat = p.b3.toNat % 128 ∧
    r.temperatureRaw.toNat = p.b4.toNat % 16 * 128 + p.b5.toNat % 128 ∧
    r.tempC10 = (r.temperatureRaw.toNat : Int) - 1024 ∧
    r.tempF100 = r.tempC10 * 18 + 3200 ∧
    r.signatureByte = p.b2

/-- 42_validator.md R98, R99, R101 (inferences of the spec): the ranges, and that the two's complement widths 11 and
16 hold the temperatures exactly. -/
def Obligations.TemperaturesFitTheirWidths : Prop :=
  ∀ (p : Packet) (s : State), ∃ r,
    exec (.extract p) s = .next { s with response := .fields r } ∧
    -1024 ≤ r.tempC10 ∧ r.tempC10 ≤ 1023 ∧ -15232 ≤ r.tempF100 ∧ r.tempF100 ≤ 21614 ∧
    (BitVec.ofInt 11 r.tempC10).toInt = r.tempC10 ∧ BitVec.ofInt 11 r.tempC10 = r.temperatureRaw ^^^ 0x400 ∧
    (BitVec.ofInt 16 r.tempF100).toInt = r.tempF100

/-- 42_validator.md R104 (an inference of the spec): flip any one bit of an accepted packet (bit 0 is the last bit
sent), and VALIDATE fails: with that byte's parity in bytes 1 to 5, with the checksum in bytes 0 and 6. -/
def Obligations.SingleFlippedBitIsCaught : Prop :=
  ∀ (p : Packet) (s : State) (r : Reading) (n : Nat), n < 56 →
    exec (.validate p) s = .next { s with response := .validation (.ok r) } →
    exec (.validate (Packet.ofBits (p.toBits ^^^ BitVec.twoPow 56 n))) s =
      .next { s with
        response := .validation (if 8 ≤ n ∧ n < 48 then .parityMismatch (Fin.ofNat 7 (6 - n / 8)) else .checksumMismatch) }

/-- 42_validator.md R103 (an inference of the spec): the 43 bits of byte 0 and of the low seven bits of bytes 1 to 5
are free, and for each choice of them exactly one packet is accepted. -/
def Obligations.FreeBitsDetermineTheAcceptedPacket : Prop :=
  ∀ (b0 : Byte) (v1 v2 v3 v4 v5 : BitVec 7) (s : State), ∃ p,
    (p.b0 = b0 ∧ low7 p.b1 = v1 ∧ low7 p.b2 = v2 ∧ low7 p.b3 = v3 ∧ low7 p.b4 = v4 ∧ low7 p.b5 = v5 ∧
      ∃ r, exec (.validate p) s = .next { s with response := .validation (.ok r) }) ∧
    ∀ q : Packet,
      (q.b0 = b0 ∧ low7 q.b1 = v1 ∧ low7 q.b2 = v2 ∧ low7 q.b3 = v3 ∧ low7 q.b4 = v4 ∧ low7 q.b5 = v5 ∧
        ∃ r, exec (.validate q) s = .next { s with response := .validation (.ok r) }) → q = p

/-! ### Encoder -/

/-- 43_encoder.md R105 and 30_encoding.md R49 (decision D16): the 122 durations of a packet, valid or not, by index;
data bit n is bit 55 - n of the 56-bit view. The gap is IDLE_GAP, any number above 1200. -/
def Obligations.EncodeListsTheTransmission : Prop :=
  ∀ (p : Packet) (s : State), ∃ E : List Nat,
    exec (.encode p) s = .next { s with response := .durations E } ∧ E.length = 122 ∧
    (∀ j, j < 4 → E[2 * j]? = some 662 ∧ E[2 * j + 1]? = some 564) ∧
    (∀ n, n < 56 → E[8 + 2 * n]? = some (if p.toBits.getLsbD (55 - n) then 436 else 245) ∧
      E[9 + 2 * n]? = some (if p.toBits.getLsbD (55 - n) then 180 else 366)) ∧
    E[120]? = some 100 ∧ E[121]? = some Config.idleGap ∧ 1200 < Config.idleGap

/-- 43_encoder.md R107 (an inference of the spec): the total duration of a packet with w one-bits, and that ENCODE is
injective. -/
def Obligations.EncodeDurationAndInjectivity : Prop :=
  (∀ (p : Packet) (s : State), ∃ E : List Nat,
    exec (.encode p) s = .next { s with response := .durations E } ∧
    E.sum = 39220 + 5 * (List.range 56).countP (fun n => p.toBits.getLsbD n) + Config.idleGap) ∧
  ∀ (p q : Packet) (s : State), exec (.encode p) s = exec (.encode q) s → p = q

/-- 43_encoder.md R108 (decision D18): ENC_LOAD at any time; it abandons what was being handed out. -/
def Obligations.EncLoadStartsTheSequence : Prop :=
  ∀ (p : Packet) (s : State),
    exec (.encLoad p) s = .next { s with enc := { pkt := p, idx := 0, loaded := true }, response := .none }

/-- 43_encoder.md R109 (decision D18): ENC_NEXT hands out element enc_idx of ENCODE(enc_pkt), with its level and the
last flag, and counts on; with nothing loaded, or after the last element, it returns nothing and writes nothing. -/
def Obligations.EncNextHandsOutTheElement : Prop :=
  ∀ s : State,
    (s.enc.loaded = true → s.enc.idx.val ≤ 121 → ∃ (i : Fin 123) (e : Element),
      i.val = s.enc.idx.val + 1 ∧
      exec .encNext s = .next { s with enc := { s.enc with idx := i }, response := .element (some e) } ∧
      (encodePulses s.enc.pkt)[s.enc.idx.val]? = some e.duration ∧
      (e.level = .high ↔ s.enc.idx.val % 2 = 0) ∧ (e.last = true ↔ s.enc.idx.val = 121)) ∧
    (s.enc.loaded = false ∨ s.enc.idx.val = 122 →
      exec .encNext s = .next { s with response := .element none })

/-- 43_encoder.md R110 (decision D18): ENC_RESTART keeps the packet and whether one is loaded. -/
def Obligations.EncRestartReturnsToElementZero : Prop :=
  ∀ s : State, exec .encRestart s = .next { s with enc := { s.enc with idx := 0 }, response := .none }

/-- 43_encoder.md R111 (an inference of the spec): in a run of ENC_LOAD p and then any interleaving of ENC_NEXT and
ENC_RESTART, each ENC_NEXT answers element k of ENCODE(p), k being the count of ENC_NEXTs since the last load or
restart, and nothing from 122 on; an ENC_RESTART answers nothing; the sequencer holds p; the decoder is unchanged. -/
def Obligations.SequencerReplaysTheLoadedPacket : Prop :=
  ∀ (p : Packet) (s : State) (ops : List Instr), (∀ i ∈ ops, i = .encNext ∨ i = .encRestart) →
    ∃ rs t, runOps (.encLoad p :: ops) s = .next (rs, t) ∧
      rs.length = ops.length + 1 ∧ rs[0]? = some .none ∧
      (∀ n : Nat, ops[n]? = some .encRestart → rs[n + 1]? = some .none) ∧
      (∀ n : Nat, ops[n]? = some .encNext → 122 ≤ nextsSinceRestart (ops.take n) →
        rs[n + 1]? = some (.element none)) ∧
      (∀ n : Nat, ops[n]? = some .encNext → nextsSinceRestart (ops.take n) < 122 →
        ∃ e, rs[n + 1]? = some (.element (some e)) ∧
          (encodePulses p)[nextsSinceRestart (ops.take n)]? = some e.duration ∧
          (e.level = .high ↔ nextsSinceRestart (ops.take n) % 2 = 0) ∧
          (e.last = true ↔ nextsSinceRestart (ops.take n) = 121)) ∧
      t.dec = s.dec ∧ t.enc.pkt = p ∧ t.enc.loaded = true ∧ t.enc.idx.val = min 122 (nextsSinceRestart ops)

/-- 43_encoder.md R112 (decisions D19, D20): the seven bytes of an assembled packet. -/
def Obligations.AssembleBuildsThePacket : Prop :=
  ∀ (c : BitVec 2) (sid : BitVec 13) (h : BitVec 7) (raw : BitVec 11) (s : State), ∃ p,
    exec (.assemble c sid h raw) s = .next { s with response := .assembled p } ∧
    p.b0.toNat = c.toNat * 64 + sid.toNat / 128 ∧
    p.b1.toNat % 128 = sid.toNat % 128 ∧ p.b2 = 0x44 ∧ p.b3.toNat % 128 = h.toNat ∧
    p.b4.toNat % 128 = raw.toNat / 128 ∧ p.b5.toNat % 128 = raw.toNat % 128 ∧
    (∀ i : Fin 7, 1 ≤ i.val → i.val ≤ 5 →
      exec (.parity (Packet.byte p i)) s = .next { s with response := .parity true }) ∧
    p.b6.toNat = (p.b0.toNat + p.b1.toNat + p.b2.toNat + p.b3.toNat + p.b4.toNat + p.b5.toNat) % 256

/-! ### Encoding -/

/-- 30_encoding.md R60, R51: decoding the word of a well-formed instruction gives it back, every operand at every
value. -/
def Obligations.DecodeOfEncodeIsTheInstruction : Prop :=
  ∀ i : Instr, i.wellFormed = true → decode (encode i) = i

/-- 30_encoding.md R60: every word decodes to a well-formed instruction. -/
def Obligations.DecodedInstructionsAreWellFormed : Prop :=
  ∀ w : TableWord, (decode w).wellFormed = true

/-- 30_encoding.md R60, opcode_table.json: a command word meets a row's match under its mask exactly when it decodes to
that row's instruction; so no two rows meet in a word. -/
def Obligations.OpcodeRowsSelectTheInstruction : Prop :=
  ∀ (w : CommandWord) (row : OpcodeRow), row ∈ opcodeRows →
    (w &&& row.mask = row.pattern ↔ (decode (.command w)).opcode = row.opcode)

/-- 30_encoding.md R60: bits of arg that an operation does not name are ignored. -/
def Obligations.UnnamedBitsAreIgnored : Prop :=
  ∀ w v : CommandWord,
    w &&& namedBits (decode (.command w)).opcode = v &&& namedBits (decode (.command w)).opcode →
    decode (.command v) = decode (.command w)

/-- 95_test_vectors.md: command words written out from 30_encoding.md R60 decode to their operations. -/
def Obligations.SampleWordsDecode : Prop :=
  decodeTableWord 64 0x1000000000001B4 = some (.classify 436) ∧
  decodeTableWord 64 0x200000000000296 = some (.feed 662) ∧
  decodeTableWord 64 0x300000000000000 = some .reset ∧
  decodeTableWord 64 0x5000000000000AA = some (.parity 0xAA) ∧
  decodeTableWord 64 0x8C0AA44B2059F04 = some (.validate ⟨0xC0, 0xAA, 0x44, 0xB2, 0x05, 0x9F, 0x04⟩) ∧
  decodeTableWord 64 0xB00000000000000 = some .encNext ∧
  decodeTableWord 64 0xD00000180A9929F = some (.assemble 3 42 50 671) ∧
  decodeTableWord 56 0xC0AA44B2059F04 = some (.packet ⟨0xC0, 0xAA, 0x44, 0xB2, 0x05, 0x9F, 0x04⟩)

/-! ### Whole machine -/

/-- 20_memory.md R37 with the model's own input list (log entry 2): a step takes the next word presented and runs the
instruction it decodes to; a cycle of input signals performs its transfers. -/
def Obligations.StepRunsTheWordPresented : Prop :=
  ∀ (s : State) (rest : List Input),
    (∀ w, s.input = .word w :: rest → step s = exec (decode w) { s with input := rest }) ∧
    (∀ i, s.input = .signals i :: rest → step s = .next (cycle i { s with input := rest }))

/-- The model's own way to present a word (log entry 3): step then runs exactly the instruction of that word. -/
def Obligations.PresentedWordIsWhatStepRuns : Prop :=
  ∀ (s : State) (w : CommandWord) (p : PacketWord),
    step (s.withFetchWord 64 w.toNat) = exec (decode (.command w)) s ∧
    step (s.withFetchWord 56 p.toNat) = exec (decode (.packet p)) s

/-- 41_decoder.md R89: with nothing presented the state stays as it is. That the response is then none is the model's
choice (log entry 2). -/
def Obligations.NothingPresentedNothingChanges : Prop :=
  ∀ s : State, s.input = [] → step s = .next { s with response := .none }

/-- 30_encoding.md R55 (g) (decision D11): a reserved operation code performs no operation and changes no state. -/
def Obligations.ReservedCodesPerformNoOperation : Prop :=
  ∀ s : State, exec .reserved0 s = .next { s with response := .none } ∧
    exec .reserved14 s = .next { s with response := .none } ∧
    exec .reserved15 s = .next { s with response := .none }

/-- 30_encoding.md R50, R51: the fields a packet word shows are the pattern's, and no bit of it is lost. That a packet
word presented shows them and does nothing else is the model's choice (log entry 7). -/
def Obligations.PacketWordShowsThePattern : Prop :=
  ∀ (p : Packet) (s : State), ∃ l,
    exec (.packet p) s = .next { s with response := .layout l } ∧
    p.b0.toNat = l.channel.toNat * 64 + l.sensorId.toNat / 128 ∧
    p.b1.toNat = l.parity1.toNat * 128 + l.sensorId.toNat % 128 ∧
    p.b2.toNat = l.parity2.toNat * 128 + l.signature.toNat ∧
    p.b3.toNat = l.parity3.toNat * 128 + l.humidity.toNat ∧
    p.b4.toNat = l.parity4.toNat * 128 + l.unused.toNat * 16 + l.temperatureRaw.toNat / 128 ∧
    p.b5.toNat = l.parity5.toNat * 128 + l.temperatureRaw.toNat % 128 ∧
    p.b6 = l.checksum

/-- 10_state.md R10, 41_decoder.md R85, 60_exceptions.md R123 for the operations that are not stateful and GETFRAME,
30_encoding.md R55 (g) for the reserved codes: they complete in every state and leave decoder and encoder, every byte
of memory among them, as they are. That the packet word does so is the model's choice (log entry 7, DESIGN CHOICE). -/
def Obligations.StatelessOperationsLeaveTheCore : Prop :=
  ∀ (i : Instr) (s : State),
    i.opcode ∈ [Opcode.classify, .getframe, .parity, .checksum, .extract, .validate, .encode, .assemble,
      .reserved0, .reserved14, .reserved15, .packet] →
    ∃ r, exec i s = .next { s with response := r }

/-- 10_state.md R10: the sequencer's operations complete in every state and leave the decoder, every byte of its
memory among them, as it is. -/
def Obligations.EncoderOperationsLeaveTheDecoder : Prop :=
  ∀ (i : Instr) (s : State), i.opcode ∈ [Opcode.encLoad, .encNext, .encRestart] →
    ∃ e r, exec i s = .next { s with enc := e, response := r }

/-- 20_memory.md R40: an operation of the decoder and one of the encoder may be taken in either order, with the same
responses and the same state of both. -/
def Obligations.DecoderAndEncoderAreIndependent : Prop :=
  ∀ (i j : Instr) (s t u : State), i.opcode ∈ [Opcode.feed, .reset, .getframe] →
    j.opcode ∈ [Opcode.encLoad, .encNext, .encRestart] →
    exec i s = .next t → exec j t = .next u →
    ∃ t' u', exec j s = .next t' ∧ exec i t' = .next u' ∧ u'.dec = u.dec ∧ u'.enc = u.enc ∧
      t'.response = u.response ∧ u'.response = t.response

/-- 10_state.md R17, 93_implementation_defined.md U12: while nothing is loaded no operation's response or effect
depends on enc_pkt, so the value the model gives it at power-on (log entry 4) is never seen. -/
def Obligations.UnloadedPacketIsNeverSeen : Prop :=
  ∀ (i : Instr) (s t : State) (q : Packet), s.enc.loaded = false → exec i s = .next t →
    ∃ t', exec i { s with enc := { s.enc with pkt := q } } = .next t' ∧
      t'.response = t.response ∧ t'.dec = t.dec ∧ t'.enc.idx = t.enc.idx ∧ t'.enc.loaded = t.enc.loaded ∧
      (t.enc.loaded = true → t'.enc.pkt = t.enc.pkt)

/-- 10_state.md R18 (e), R19: no operation reads the result of the last one. -/
def Obligations.LastResponseIsNeverRead : Prop :=
  ∀ (i : Instr) (s : State) (r : Response), exec i { s with response := r } = exec i s

/-! ### Signal-level binding -/

/-- 10_state.md R23 (decisions D6, D24): one clock cycle on the decoder's side, and the status ports. `rst` resets all,
`dec_reset` wins over a pulse, a pulse is taken exactly when `pulse_ready`, and then `res_code` and `res_cause` show the
result by 30_encoding.md R58 and 60_exceptions.md R121; a cycle without a FEED completes none. `frame_valid` is Done,
and `frame` shows buf[0] to buf[6] by 20_memory.md R34. The model's choices in it: a cycle with `rst` performs no
transfer, an operation takes one cycle (70_reset_and_hazards.md R153 allows any number), and `res_valid` shows in the
state after the cycle (log entry 14, DESIGN CHOICE); that the codes stay in their ranges while `res_valid` is 0 rests
on log entry 21. Nothing is said of enc_pkt after `rst` (log entry 4). -/
def Obligations.DecoderPortsPerformOneOperation : Prop :=
  ∀ (i : PortIn) (s : State),
    (cycle i s).input = s.input ∧
    (i.rst = true → (cycle i s).dec = Decoder.atReset ∧ (cycle i s).enc.loaded = false ∧
      (cycle i s).enc.idx.val = 0 ∧ (portOut (cycle i s)).resValid = false) ∧
    (i.rst = false → i.decReset = true →
      (cycle i s).dec = Decoder.atReset ∧ (portOut (cycle i s)).resValid = false) ∧
    (i.rst = false → i.decReset = false → i.pulseValid = true → (portOut s).pulseReady = true →
      ∃ t r, exec (.feed i.pulseDur.toNat) s = .next t ∧ t.response = .fed r ∧ (cycle i s).dec = t.dec ∧
        (cycle i s).response = .fed r ∧ (portOut (cycle i s)).resValid = true ∧
        (r = .cont → (portOut (cycle i s)).resCode = 0 ∧ (portOut (cycle i s)).resCause = 0) ∧
        (r = .frameReady → (portOut (cycle i s)).resCode = 1 ∧ (portOut (cycle i s)).resCause = 0) ∧
        (∀ c, r = .rejected c → (portOut (cycle i s)).resCode = 2) ∧
        (r = .rejected .tooLongPulse → (portOut (cycle i s)).resCause = 1) ∧
        (r = .rejected .syncTailOutOfRange → (portOut (cycle i s)).resCause = 2) ∧
        (r = .rejected .prematureDataBit → (portOut (cycle i s)).resCause = 3) ∧
        (r = .rejected .bufferOverflow → (portOut (cycle i s)).resCause = 4)) ∧
    (i.rst = false → i.decReset = false → (i.pulseValid = false ∨ (portOut s).pulseReady = false) →
      (cycle i s).dec = s.dec ∧ (portOut (cycle i s)).resValid = false) ∧
    (portOut s).resCode ≠ 3 ∧ ((portOut s).resCode ≠ 2 → (portOut s).resCause = 0) ∧
    ((portOut s).frameValid = true ↔ s.dec.state = .done) ∧
    ∀ n, n < 56 → (portOut s).frame.getLsbD (55 - n) =
      (Memory.read s.dec.buf (Fin.ofNat 25 (n / 8))).getLsbD (7 - n % 8)

/-- 10_state.md R23: one clock cycle on the encoder's side. With at most one transfer it performs that operation; with
several it performs each of them once, in an order that is a free value (log entry 14, DESIGN CHOICE). In an ENC_NEXT
the ports show the element handed out, `enc_level` 1 for high; `enc_dur` shows its duration when 16 bits hold it, as
they do for every element but a long gap (what they show of that is a free value, log entry 18, DESIGN CHOICE). -/
def Obligations.EncoderPortsPerformOneOperation : Prop :=
  ∀ (i : PortIn) (s : State), i.rst = false →
    (i.encLoad = true → i.encRestart = false → (i.encReady = false ∨ (portOut s).encValid = false) →
      ∃ t, exec (.encLoad (Packet.ofBits i.encPktIn)) s = .next t ∧ (cycle i s).enc = t.enc) ∧
    (i.encLoad = false → i.encRestart = true → (i.encReady = false ∨ (portOut s).encValid = false) →
      ∃ t, exec .encRestart s = .next t ∧ (cycle i s).enc = t.enc) ∧
    (i.encLoad = false → i.encRestart = false → i.encReady = true → (portOut s).encValid = true →
      ∃ t e, exec .encNext s = .next t ∧ (cycle i s).enc = t.enc ∧ t.response = .element (some e) ∧
        (s.enc.idx.val ≤ 120 ∨ Config.idleGap < 65536 → (portOut s).encDur.toNat = e.duration) ∧
        ((portOut s).encLevel = true ↔ e.level = .high) ∧ (portOut s).encLast = e.last) ∧
    (i.encLoad = false → i.encRestart = false → (i.encReady = false ∨ (portOut s).encValid = false) →
      (cycle i s).enc = s.enc) ∧
    ∃ ops rs t, List.Perm ops (encTransfers i s) ∧ runOps ops s = .next (rs, t) ∧ (cycle i s).enc = t.enc

/-- 10_state.md R23: the diagnostic ports show the decoder (codes of 30_encoding.md R57, the sync count saturated at 7),
and the validator's ports show VALIDATE and EXTRACT of the seven bytes in buf (codes of 60_exceptions.md R122). -/
def Obligations.PortsShowTheDecoderAndTheValidator : Prop :=
  ∀ (s : State) (p : Packet),
    (∀ i : Fin 7, Packet.byte p i = Memory.read s.dec.buf (Fin.castLE (Nat.le_add_right 7 18) i)) →
    ((portOut s).dbgState.toNat = match s.dec.state with
      | .unknown => 0
      | .awaitingHead => 1
      | .confirmSync => 2
      | .confirmOne => 3
      | .confirmZero => 4
      | .rejectPending => 5
      | .done => 6) ∧
    (portOut s).dbgSync.toNat = min s.dec.syncCount 7 ∧ (portOut s).dbgBits.toNat = s.dec.bitCount.val ∧
    (portOut s).dbgBytes.toNat = s.dec.byteIndex.val ∧
    ∃ v r, exec (.validate p) s = .next { s with response := .validation v } ∧
      exec (.extract p) s = .next { s with response := .fields r } ∧
      (∀ x, v = .ok x → (portOut s).valOk = true ∧ (portOut s).valErr = 0 ∧ (portOut s).valIdx = 0) ∧
      (∀ j, v = .parityMismatch j →
        (portOut s).valOk = false ∧ (portOut s).valErr = 1 ∧ (portOut s).valIdx.toNat = j.val) ∧
      (v = .checksumMismatch →
        (portOut s).valOk = false ∧ (portOut s).valErr = 2 ∧ (portOut s).valIdx = 0) ∧
      (portOut s).chan = r.channel ∧ (portOut s).sensorId = r.sensorId ∧
      (portOut s).humidity = r.humidityPercent ∧ (portOut s).tempRaw = r.temperatureRaw ∧
      (portOut s).tempC10.toInt = r.tempC10 ∧ (portOut s).tempF100.toInt = r.tempF100 ∧
      (portOut s).signature = r.signatureByte
end

