-- ==== Sys2Proof/Laws/Memory.lean ====
section
/-! SUPPORT. The memory of the decoder: a read after a write, the canonical form, and what each access of
20_memory.md R36 does to every byte. -/

namespace Sys2Proof.Machine

@[simp] theorem Memory.read_nil (i : Fin 25) : Memory.read [] i = 0 := rfl

@[simp] theorem Memory.read_cleared (i : Fin 25) : Memory.read Memory.cleared i = 0 := rfl

/-- In a memory whose addresses are all above `i`, address `i` is not listed. -/
theorem Memory.read_of_wfFrom_gt {m : Memory} {lo : Nat} {i : Fin 25} (h : Memory.wfFrom lo m = true)
    (hi : i.val < lo) : Memory.read m i = 0 := by
  induction m generalizing lo with
  | nil => rfl
  | cons c rest ih =>
    simp only [Memory.wfFrom, Bool.and_eq_true, decide_eq_true_eq] at h
    obtain ⟨⟨⟨hlo, _⟩, _⟩, hr⟩ := h
    simp only [Memory.read]
    rw [if_neg (by omega)]
    exact ih hr (by omega)

theorem Memory.wfFrom_mono {m : Memory} {lo lo' : Nat} (h : Memory.wfFrom lo m = true) (hl : lo' ≤ lo) :
    Memory.wfFrom lo' m = true := by
  cases m with
  | nil => rfl
  | cons c rest =>
    simp only [Memory.wfFrom, Bool.and_eq_true, decide_eq_true_eq] at h ⊢
    obtain ⟨⟨⟨hlo, h2⟩, h3⟩, hr⟩ := h
    exact ⟨⟨⟨by omega, h2⟩, h3⟩, hr⟩

/-- A write keeps the canonical form above a bound. -/
theorem Memory.wfFrom_write {m : Memory} {lo : Nat} {i : Fin 25} {v : Byte}
    (h : Memory.wfFrom lo m = true) (hi : lo ≤ i.val) : Memory.wfFrom lo (Memory.write m i v) = true := by
  induction m generalizing lo with
  | nil =>
    simp only [Memory.write]
    split
    · rfl
    · simp only [Memory.wfFrom, Bool.and_eq_true, decide_eq_true_eq]
      exact ⟨⟨⟨hi, i.isLt⟩, by assumption⟩, trivial⟩
  | cons c rest ih =>
    have h' := h
    simp only [Memory.wfFrom, Bool.and_eq_true, decide_eq_true_eq] at h
    obtain ⟨⟨⟨hlo, hcap⟩, hne⟩, hr⟩ := h
    simp only [Memory.write]
    split
    · split
      · exact h'
      · simp only [Memory.wfFrom, Bool.and_eq_true, decide_eq_true_eq]
        exact ⟨⟨⟨hi, i.isLt⟩, by assumption⟩, ⟨⟨by omega, hcap⟩, hne⟩, hr⟩
    · split
      · split
        · exact Memory.wfFrom_mono hr (by omega)
        · simp only [Memory.wfFrom, Bool.and_eq_true, decide_eq_true_eq]
          refine ⟨⟨⟨hi, i.isLt⟩, by assumption⟩, ?_⟩
          rename_i heq _
          rw [heq]; exact hr
      · simp only [Memory.wfFrom, Bool.and_eq_true, decide_eq_true_eq]
        exact ⟨⟨⟨hlo, hcap⟩, hne⟩, ih hr (by omega)⟩

/-- A write keeps the canonical form. -/
theorem Memory.wf_write {m : Memory} (i : Fin 25) (v : Byte) (h : Memory.wf m = true) :
    Memory.wf (Memory.write m i v) = true := Memory.wfFrom_write h (Nat.zero_le _)

@[simp] theorem Memory.wf_cleared : Memory.wf Memory.cleared = true := rfl

/-- A read after a write to the same address gives the value written. -/
theorem Memory.read_write_same_from {m : Memory} {lo : Nat} (i : Fin 25) (v : Byte)
    (h : Memory.wfFrom lo m = true) : Memory.read (Memory.write m i v) i = v := by
  induction m generalizing lo with
  | nil =>
    simp only [Memory.write]
    split
    · simp_all [Memory.read]
    · simp [Memory.read]
  | cons c rest ih =>
    have h' := h
    simp only [Memory.wfFrom, Bool.and_eq_true, decide_eq_true_eq] at h
    obtain ⟨⟨⟨hlo, hcap⟩, hne⟩, hr⟩ := h
    simp only [Memory.write]
    split
    · rename_i hlt
      split
      · rename_i hv
        simp only [Memory.read]
        rw [if_neg (by omega), Memory.read_of_wfFrom_gt hr (by omega), hv]
        rfl
      · simp [Memory.read]
    · split
      · rename_i heq
        split
        · rename_i hv
          rw [Memory.read_of_wfFrom_gt hr (by omega), hv]
          rfl
        · simp [Memory.read]
      · simp only [Memory.read]
        rw [if_neg (by omega)]
        exact ih hr

theorem Memory.read_write_same {m : Memory} (i : Fin 25) (v : Byte) (h : Memory.wf m = true) :
    Memory.read (Memory.write m i v) i = v := Memory.read_write_same_from i v h

/-- A write leaves every other address alone, in any list. -/
theorem Memory.read_write_ne (m : Memory) {i j : Fin 25} (v : Byte) (hij : j ≠ i) :
    Memory.read (Memory.write m i v) j = Memory.read m j := by
  have hv : i.val ≠ j.val := fun e => hij (Fin.ext e.symm)
  induction m with
  | nil =>
    simp only [Memory.write]
    split
    · rfl
    · simp [Memory.read, hv]
  | cons c rest ih =>
    simp only [Memory.write]
    split
    · split
      · rfl
      · simp [Memory.read, hv]
    · split
      · rename_i heq
        split
        · simp [Memory.read, ← heq, hv]
        · simp [Memory.read, ← heq, hv]
      · simp only [Memory.read, ih]

/-- Canonical memories with the same bytes are the same data. -/
theorem Memory.ext_from {m n : Memory} {lo : Nat} (hm : Memory.wfFrom lo m = true) (hn : Memory.wfFrom lo n = true)
    (h : ∀ i : Fin 25, Memory.read m i = Memory.read n i) : m = n := by
  induction m generalizing n lo with
  | nil =>
    cases n with
    | nil => rfl
    | cons c rest =>
      simp only [Memory.wfFrom, Bool.and_eq_true, decide_eq_true_eq] at hn
      have := h ⟨c.1, hn.1.1.2⟩
      simp only [Memory.read, if_true] at this
      exact absurd this.symm hn.1.2
  | cons c rest ih =>
    cases n with
    | nil =>
      simp only [Memory.wfFrom, Bool.and_eq_true, decide_eq_true_eq] at hm
      have := h ⟨c.1, hm.1.1.2⟩
      simp only [Memory.read, if_true] at this
      exact absurd this hm.1.2
    | cons c' rest' =>
      simp only [Memory.wfFrom, Bool.and_eq_true, decide_eq_true_eq] at hm hn
      obtain ⟨⟨⟨_, mc⟩, mne⟩, mr⟩ := hm
      obtain ⟨⟨⟨_, nc⟩, nne⟩, nr⟩ := hn
      have haddr : c.1 = c'.1 := by
        rcases Nat.lt_trichotomy c.1 c'.1 with hlt | heq | hgt
        · have := h ⟨c.1, mc⟩
          simp only [Memory.read, if_true] at this
          rw [if_neg (by omega), Memory.read_of_wfFrom_gt nr (by show c.1 < _; omega)] at this
          exact absurd this mne
        · exact heq
        · have := h ⟨c'.1, nc⟩
          simp only [Memory.read, if_true] at this
          rw [if_neg (by omega), Memory.read_of_wfFrom_gt mr (by show c'.1 < _; omega)] at this
          exact absurd this.symm nne
      have hval : c.2 = c'.2 := by
        have := h ⟨c.1, mc⟩
        simpa [Memory.read, haddr] using this
      have hcell : c = c' := Prod.ext haddr hval
      subst hcell
      congr 1
      refine ih mr nr fun i => ?_
      by_cases hi : c.1 = i.val
      · rw [Memory.read_of_wfFrom_gt mr (by omega), Memory.read_of_wfFrom_gt nr (by omega)]
      · have := h i
        simpa [Memory.read, hi] using this

theorem Memory.ext {m n : Memory} (hm : Memory.wf m = true) (hn : Memory.wf n = true)
    (h : ∀ i : Fin 25, Memory.read m i = Memory.read n i) : m = n := Memory.ext_from hm hn h

/-! ### The accesses -/

theorem Memory.wf_insertBitAt {m : Memory} (i : Fin 25) (v : Bool) (h : Memory.wf m = true) :
    Memory.wf (Memory.insertBitAt m i v) = true := Memory.wf_write i _ h

theorem Memory.read_insertBitAt_same {m : Memory} (i : Fin 25) (v : Bool) (h : Memory.wf m = true) :
    Memory.read (Memory.insertBitAt m i v) i = insertBit (Memory.read m i) v := Memory.read_write_same i _ h

theorem Memory.read_insertBitAt_ne (m : Memory) {i j : Fin 25} (v : Bool) (h : j ≠ i) :
    Memory.read (Memory.insertBitAt m i v) j = Memory.read m j := Memory.read_write_ne m _ h

theorem Memory.wf_reverseAt {m : Memory} (i : Fin 25) (h : Memory.wf m = true) :
    Memory.wf (Memory.reverseAt m i) = true := Memory.wf_write i _ h

theorem Memory.read_reverseAt_same {m : Memory} (i : Fin 25) (h : Memory.wf m = true) :
    Memory.read (Memory.reverseAt m i) i = bitrev8 (Memory.read m i) := Memory.read_write_same i _ h

theorem Memory.read_reverseAt_ne (m : Memory) {i j : Fin 25} (h : j ≠ i) :
    Memory.read (Memory.reverseAt m i) j = Memory.read m j := Memory.read_write_ne m _ h

theorem Memory.read_reverseAt {m : Memory} (i j : Fin 25) (h : Memory.wf m = true) :
    Memory.read (Memory.reverseAt m i) j = if j = i then bitrev8 (Memory.read m j) else Memory.read m j := by
  split
  · rename_i e; subst e; exact Memory.read_reverseAt_same j h
  · exact Memory.read_reverseAt_ne m (by assumption)

theorem Memory.wf_reverseFrame {m : Memory} (h : Memory.wf m = true) : Memory.wf (Memory.reverseFrame m) = true := by
  unfold Memory.reverseFrame
  repeat' apply Memory.wf_reverseAt
  exact h

/-- Frame reversal reverses bytes 0 to 6 and leaves the others. -/
theorem Memory.read_reverseFrame {m : Memory} (j : Fin 25) (h : Memory.wf m = true) :
    Memory.read (Memory.reverseFrame m) j = if j.val < 7 then bitrev8 (Memory.read m j) else Memory.read m j := by
  have h0 := Memory.wf_reverseAt 0 h
  have h1 := Memory.wf_reverseAt 1 h0
  have h2 := Memory.wf_reverseAt 2 h1
  have h3 := Memory.wf_reverseAt 3 h2
  have h4 := Memory.wf_reverseAt 4 h3
  have h5 := Memory.wf_reverseAt 5 h4
  unfold Memory.reverseFrame
  rw [Memory.read_reverseAt 6 j h5, Memory.read_reverseAt 5 j h4, Memory.read_reverseAt 4 j h3,
    Memory.read_reverseAt 3 j h2, Memory.read_reverseAt 2 j h1, Memory.read_reverseAt 1 j h0,
    Memory.read_reverseAt 0 j h]
  by_cases hj : j.val < 7
  · obtain ⟨k, hk⟩ := j
    have : k = 0 ∨ k = 1 ∨ k = 2 ∨ k = 3 ∨ k = 4 ∨ k = 5 ∨ k = 6 := by simp only at hj; omega
    rcases this with rfl | rfl | rfl | rfl | rfl | rfl | rfl <;> simp
  · have e : ∀ k : Fin 25, k.val < 7 → j ≠ k := fun k hk he => hj (he ▸ hk)
    rw [if_neg hj, if_neg (e 6 (by decide)), if_neg (e 5 (by decide)), if_neg (e 4 (by decide)),
      if_neg (e 3 (by decide)), if_neg (e 2 (by decide)), if_neg (e 1 (by decide)), if_neg (e 0 (by decide))]

/-- A frame read gives the bytes of the memory. -/
theorem Memory.frame_byte (m : Memory) (i : Fin 7) :
    Packet.byte (Memory.frame m) i = Memory.read m (Fin.castLE (by decide) i) := by
  match i with
  | 0 => rfl
  | 1 => rfl
  | 2 => rfl
  | 3 => rfl
  | 4 => rfl
  | 5 => rfl
  | 6 => rfl

/-- The bits of a byte after an insertion (41_decoder.md R79). -/
theorem getLsbD_insertBit (b : Byte) (v : Bool) (k : Nat) :
    (insertBit b v).getLsbD k = if k = 7 then v else b.getLsbD (k + 1) := by
  unfold insertBit
  by_cases hk : k < 8
  · have : k = 0 ∨ k = 1 ∨ k = 2 ∨ k = 3 ∨ k = 4 ∨ k = 5 ∨ k = 6 ∨ k = 7 := by omega
    rcases this with rfl | rfl | rfl | rfl | rfl | rfl | rfl | rfl <;> cases v <;> simp
  · rw [BitVec.getLsbD_of_ge _ k (by omega), BitVec.getLsbD_of_ge _ (k + 1) (by omega), if_neg (by omega)]

/-- The bits of a reversed byte (00_scope.md R9). -/
theorem getLsbD_bitrev8 (b : Byte) (k : Nat) (hk : k < 8) : (bitrev8 b).getLsbD k = b.getLsbD (7 - k) := by
  unfold bitrev8
  rw [BitVec.getLsbD_reverse, BitVec.getMsbD]
  simp [hk]

end Sys2Proof.Machine
end

