-- ==== Sys2Proof/Laws/State.lean ====
section
/-! SUPPORT. One lemma per field and update of State. -/

namespace Sys2Proof.Machine

@[simp] theorem State.respond_dec (s : State) (r : Response) : (s.respond r).dec = s.dec := rfl
@[simp] theorem State.respond_enc (s : State) (r : Response) : (s.respond r).enc = s.enc := rfl
@[simp] theorem State.respond_input (s : State) (r : Response) : (s.respond r).input = s.input := rfl
@[simp] theorem State.respond_response (s : State) (r : Response) : (s.respond r).response = r := rfl
@[simp] theorem State.respond_cycles (s : State) (r : Response) : (s.respond r).cycles = s.cycles := rfl

@[simp] theorem State.withDec_dec (s : State) (d : Decoder) : (s.withDec d).dec = d := rfl
@[simp] theorem State.withDec_enc (s : State) (d : Decoder) : (s.withDec d).enc = s.enc := rfl
@[simp] theorem State.withDec_input (s : State) (d : Decoder) : (s.withDec d).input = s.input := rfl
@[simp] theorem State.withDec_response (s : State) (d : Decoder) : (s.withDec d).response = s.response := rfl
@[simp] theorem State.withDec_cycles (s : State) (d : Decoder) : (s.withDec d).cycles = s.cycles := rfl

@[simp] theorem State.withEnc_dec (s : State) (e : Encoder) : (s.withEnc e).dec = s.dec := rfl
@[simp] theorem State.withEnc_enc (s : State) (e : Encoder) : (s.withEnc e).enc = e := rfl
@[simp] theorem State.withEnc_input (s : State) (e : Encoder) : (s.withEnc e).input = s.input := rfl
@[simp] theorem State.withEnc_response (s : State) (e : Encoder) : (s.withEnc e).response = s.response := rfl
@[simp] theorem State.withEnc_cycles (s : State) (e : Encoder) : (s.withEnc e).cycles = s.cycles := rfl

@[simp] theorem State.withInput_dec (s : State) (l : List Input) : (s.withInput l).dec = s.dec := rfl
@[simp] theorem State.withInput_enc (s : State) (l : List Input) : (s.withInput l).enc = s.enc := rfl
@[simp] theorem State.withInput_input (s : State) (l : List Input) : (s.withInput l).input = l := rfl
@[simp] theorem State.withInput_response (s : State) (l : List Input) : (s.withInput l).response = s.response := rfl
@[simp] theorem State.withInput_cycles (s : State) (l : List Input) : (s.withInput l).cycles = s.cycles := rfl

@[simp] theorem State.tick_dec (s : State) : s.tick.dec = s.dec := rfl
@[simp] theorem State.tick_enc (s : State) : s.tick.enc = s.enc := rfl
@[simp] theorem State.tick_input (s : State) : s.tick.input = s.input := rfl
@[simp] theorem State.tick_response (s : State) : s.tick.response = s.response := rfl
@[simp] theorem State.tick_cycles (s : State) : s.tick.cycles = s.cycles + 1 := rfl

@[simp] theorem State.reset_dec : State.reset.dec = Decoder.atReset := rfl
@[simp] theorem State.reset_enc : State.reset.enc = Encoder.atReset := rfl
@[simp] theorem State.reset_input : State.reset.input = [] := rfl

end Sys2Proof.Machine
end

