-- ==== Sys2Proof/Laws/Decoder.lean ====
section
/-! SUPPORT. What the classifier, the head dispatch, APPEND, the sync tail and FEED can do, each said once. -/

namespace Sys2Proof.Machine

/-! ### Classifier -/

/-- CLASSIFY with the constants of 00_scope.md R7 written out. -/
theorem classify_def (d : Nat) :
    classify d = if d > 1200 then .tooLong else if d ≥ 500 then .sync else if d ≥ 380 then .oneBit
      else if d ≥ 190 then .zeroBit else .tooShort := rfl

theorem classify_tooLong {d : Nat} (h : 1201 ≤ d) : classify d = .tooLong := by
  rw [classify_def, if_pos (by omega)]

theorem classify_sync {d : Nat} (h1 : 500 ≤ d) (h2 : d ≤ 1200) : classify d = .sync := by
  rw [classify_def, if_neg (by omega), if_pos (by omega)]

theorem classify_oneBit {d : Nat} (h1 : 380 ≤ d) (h2 : d ≤ 499) : classify d = .oneBit := by
  rw [classify_def, if_neg (by omega), if_neg (by omega), if_pos (by omega)]

theorem classify_zeroBit {d : Nat} (h1 : 190 ≤ d) (h2 : d ≤ 379) : classify d = .zeroBit := by
  rw [classify_def, if_neg (by omega), if_neg (by omega), if_neg (by omega),
    if_pos (by omega)]

theorem classify_tooShort {d : Nat} (h : d ≤ 189) : classify d = .tooShort := by
  rw [classify_def, if_neg (by omega), if_neg (by omega), if_neg (by omega),
    if_neg (by omega)]

/-- Every duration lies in one of the five intervals, with its category. -/
theorem classify_cases (d : Nat) :
    (1201 ≤ d ∧ classify d = .tooLong) ∨ (500 ≤ d ∧ d ≤ 1200 ∧ classify d = .sync) ∨
    (380 ≤ d ∧ d ≤ 499 ∧ classify d = .oneBit) ∨ (190 ≤ d ∧ d ≤ 379 ∧ classify d = .zeroBit) ∨
    (d ≤ 189 ∧ classify d = .tooShort) := by
  by_cases h1 : 1201 ≤ d
  · exact .inl ⟨h1, classify_tooLong h1⟩
  by_cases h2 : 500 ≤ d
  · exact .inr (.inl ⟨h2, by omega, classify_sync h2 (by omega)⟩)
  by_cases h3 : 380 ≤ d
  · exact .inr (.inr (.inl ⟨h3, by omega, classify_oneBit h3 (by omega)⟩))
  by_cases h4 : 190 ≤ d
  · exact .inr (.inr (.inr (.inl ⟨h4, by omega, classify_zeroBit h4 (by omega)⟩)))
  · exact .inr (.inr (.inr (.inr ⟨by omega, classify_tooShort (by omega)⟩)))

/-! ### Head dispatch -/

theorem headDispatch_tooLong {x : Nat} (d : Decoder) (h : 1201 ≤ x) :
    headDispatch x d = (.rejected .tooLongPulse, fullReset) := by
  simp only [headDispatch, classify_tooLong h, raiseRejected]

theorem headDispatch_sync {x : Nat} (d : Decoder) (h1 : 500 ≤ x) (h2 : x ≤ 1200) :
    headDispatch x d = (.cont, { d with state := .confirmSync }) := by
  simp only [headDispatch, classify_sync h1 h2]

theorem headDispatch_oneBit {x : Nat} {d : Decoder} (h1 : 380 ≤ x) (h2 : x ≤ 499) (h : d.syncCount = 4) :
    headDispatch x d = (.cont, { d with state := .confirmOne }) := by
  simp only [headDispatch, classify_oneBit h1 h2, h, ne_eq, not_true_eq_false, if_false]

theorem headDispatch_zeroBit {x : Nat} {d : Decoder} (h1 : 190 ≤ x) (h2 : x ≤ 379) (h : d.syncCount = 4) :
    headDispatch x d = (.cont, { d with state := .confirmZero }) := by
  simp only [headDispatch, classify_zeroBit h1 h2, h, ne_eq, not_true_eq_false, if_false]

theorem headDispatch_premature {x : Nat} {d : Decoder} (h1 : 190 ≤ x) (h2 : x ≤ 499) (h : d.syncCount ≠ 4) :
    headDispatch x d = (.cont, { d with state := .rejectPending }) := by
  by_cases h3 : 380 ≤ x
  · simp only [headDispatch, classify_oneBit h3 h2, ne_eq, h, not_false_eq_true, if_true]
  · simp only [headDispatch, classify_zeroBit h1 (show x ≤ 379 by omega), ne_eq, h, not_false_eq_true, if_true]

theorem headDispatch_tooShort {x : Nat} (d : Decoder) (h : x ≤ 189) :
    headDispatch x d = (.cont, { d with state := .awaitingHead }) := by
  simp only [headDispatch, classify_tooShort h]

/-- Everything the head dispatch can do. -/
theorem headDispatch_cases (x : Nat) (d : Decoder) :
    (1201 ≤ x ∧ headDispatch x d = (.rejected .tooLongPulse, fullReset)) ∨
    (500 ≤ x ∧ x ≤ 1200 ∧ headDispatch x d = (.cont, { d with state := .confirmSync })) ∨
    (380 ≤ x ∧ x ≤ 499 ∧ d.syncCount = 4 ∧ headDispatch x d = (.cont, { d with state := .confirmOne })) ∨
    (190 ≤ x ∧ x ≤ 379 ∧ d.syncCount = 4 ∧ headDispatch x d = (.cont, { d with state := .confirmZero })) ∨
    (190 ≤ x ∧ x ≤ 499 ∧ d.syncCount ≠ 4 ∧ headDispatch x d = (.cont, { d with state := .rejectPending })) ∨
    (x ≤ 189 ∧ headDispatch x d = (.cont, { d with state := .awaitingHead })) := by
  by_cases h1 : 1201 ≤ x
  · exact .inl ⟨h1, headDispatch_tooLong d h1⟩
  by_cases h2 : 500 ≤ x
  · exact .inr (.inl ⟨h2, by omega, headDispatch_sync d h2 (by omega)⟩)
  by_cases h4 : 190 ≤ x
  · by_cases hs : d.syncCount = 4
    · by_cases h3 : 380 ≤ x
      · exact .inr (.inr (.inl ⟨h3, by omega, hs, headDispatch_oneBit h3 (by omega) hs⟩))
      · exact .inr (.inr (.inr (.inl ⟨h4, by omega, hs, headDispatch_zeroBit h4 (by omega) hs⟩)))
    · exact .inr (.inr (.inr (.inr (.inl ⟨h4, by omega, hs, headDispatch_premature h4 (by omega) hs⟩))))
  · exact .inr (.inr (.inr (.inr (.inr ⟨by omega, headDispatch_tooShort d (by omega)⟩))))

/-! ### APPEND -/

theorem append_within {v : Bool} {d : Decoder} (h : d.bitCount.val + 1 < 8) :
    append v d = (.cont, { d with state := .awaitingHead, bitCount := ⟨d.bitCount.val + 1, h⟩,
                                  buf := Memory.insertBitAt d.buf d.byteIndex v }) := by
  simp only [append, h, dite_true]

theorem append_seventh {v : Bool} {d : Decoder} (hb : d.bitCount.val = 7) (hi : d.byteIndex.val = 6) :
    append v d = (.frameReady, { d with state := .done, bitCount := 0, byteIndex := 7,
                                        buf := Memory.reverseFrame (Memory.insertBitAt d.buf d.byteIndex v) }) := by
  simp [append, completeByte, hb, hi]

theorem append_byte {v : Bool} {d : Decoder} (hb : d.bitCount.val = 7) (hi : d.byteIndex.val ≠ 6)
    (hn : d.byteIndex.val + 1 < 25) :
    append v d = (.cont, { d with state := .awaitingHead, bitCount := 0, byteIndex := ⟨d.byteIndex.val + 1, hn⟩,
                                  buf := Memory.insertBitAt d.buf d.byteIndex v }) := by
  have h7 : ¬ d.byteIndex.val + 1 = Config.frameBytes := fun e => hi (Nat.succ.inj e)
  simp [append, completeByte, hb, h7, hn]

theorem append_overflow {v : Bool} {d : Decoder} (hb : d.bitCount.val = 7) (hi : d.byteIndex.val = 24) :
    append v d = (.rejected .bufferOverflow, fullReset) := by
  simp [append, completeByte, hb, hi, raiseRejected]

/-- Everything APPEND can do. -/
theorem append_cases (v : Bool) (d : Decoder) :
    (∃ h : d.bitCount.val + 1 < 8,
      append v d = (.cont, { d with state := .awaitingHead, bitCount := ⟨d.bitCount.val + 1, h⟩,
                                    buf := Memory.insertBitAt d.buf d.byteIndex v })) ∨
    (d.bitCount.val = 7 ∧ d.byteIndex.val = 6 ∧
      append v d = (.frameReady, { d with state := .done, bitCount := 0, byteIndex := 7,
                                          buf := Memory.reverseFrame (Memory.insertBitAt d.buf d.byteIndex v) })) ∨
    (d.bitCount.val = 7 ∧ d.byteIndex.val ≠ 6 ∧ ∃ hn : d.byteIndex.val + 1 < 25,
      append v d = (.cont, { d with state := .awaitingHead, bitCount := 0, byteIndex := ⟨d.byteIndex.val + 1, hn⟩,
                                    buf := Memory.insertBitAt d.buf d.byteIndex v })) ∨
    (d.bitCount.val = 7 ∧ d.byteIndex.val = 24 ∧ append v d = (.rejected .bufferOverflow, fullReset)) := by
  by_cases h : d.bitCount.val + 1 < 8
  · exact .inl ⟨h, append_within h⟩
  have hb : d.bitCount.val = 7 := by omega
  by_cases hi : d.byteIndex.val = 6
  · exact .inr (.inl ⟨hb, hi, append_seventh hb hi⟩)
  by_cases hn : d.byteIndex.val + 1 < 25
  · exact .inr (.inr (.inl ⟨hb, hi, hn, append_byte hb hi hn⟩))
  · exact .inr (.inr (.inr ⟨hb, by omega, append_overflow hb (by omega)⟩))

/-! ### Sync tail -/

/-- The sync tail with the constants of 00_scope.md R7 written out. -/
theorem syncTail_def (x : Nat) (d : Decoder) :
    syncTail x d = if x > 670 then (.rejected .syncTailOutOfRange, fullReset)
      else if x < 500 then headDispatch x { d with syncCount := d.syncCount + 1 }
      else (.cont, { d with state := .awaitingHead, syncCount := d.syncCount + 1 }) := rfl

theorem syncTail_long {x : Nat} (d : Decoder) (h : 671 ≤ x) :
    syncTail x d = (.rejected .syncTailOutOfRange, fullReset) := by
  rw [syncTail_def, if_pos (by omega)]

theorem syncTail_inRange {x : Nat} (d : Decoder) (h1 : 500 ≤ x) (h2 : x ≤ 670) :
    syncTail x d = (.cont, { d with state := .awaitingHead, syncCount := d.syncCount + 1 }) := by
  rw [syncTail_def, if_neg (by omega), if_neg (by omega)]

theorem syncTail_short {x : Nat} (d : Decoder) (h : x ≤ 499) :
    syncTail x d = headDispatch x { d with syncCount := d.syncCount + 1 } := by
  rw [syncTail_def, if_neg (by omega), if_pos (by omega)]

/-! ### FEED -/

theorem feed_unknown {x : Nat} {d : Decoder} (h : d.state = .unknown) : feed x d = some (headDispatch x d) := by
  simp only [feed, h]

theorem feed_awaitingHead {x : Nat} {d : Decoder} (h : d.state = .awaitingHead) :
    feed x d = some (headDispatch x d) := by
  simp only [feed, h]

theorem feed_confirmSync {x : Nat} {d : Decoder} (h : d.state = .confirmSync) : feed x d = some (syncTail x d) := by
  simp only [feed, h]

theorem feed_confirmOne {x : Nat} {d : Decoder} (h : d.state = .confirmOne) : feed x d = some (append true d) := by
  simp only [feed, h]

theorem feed_confirmZero {x : Nat} {d : Decoder} (h : d.state = .confirmZero) : feed x d = some (append false d) := by
  simp only [feed, h]

theorem feed_rejectPending {x : Nat} {d : Decoder} (h : d.state = .rejectPending) :
    feed x d = some (.rejected .prematureDataBit, fullReset) := by
  simp only [feed, h, raiseRejected]

theorem feed_done {x : Nat} {d : Decoder} (h : d.state = .done) : feed x d = none := by
  simp only [feed, h]

/-- FEED by the state it starts in. -/
theorem feed_cases (x : Nat) (d : Decoder) :
    ((d.state = .unknown ∨ d.state = .awaitingHead) ∧ feed x d = some (headDispatch x d)) ∨
    (d.state = .confirmSync ∧ feed x d = some (syncTail x d)) ∨
    (d.state = .confirmOne ∧ feed x d = some (append true d)) ∨
    (d.state = .confirmZero ∧ feed x d = some (append false d)) ∨
    (d.state = .rejectPending ∧ feed x d = some (.rejected .prematureDataBit, fullReset)) ∨
    (d.state = .done ∧ feed x d = none) := by
  rcases hs : d.state with _ | _ | _ | _ | _ | _ | _
  · exact .inl ⟨.inl rfl, feed_unknown hs⟩
  · exact .inl ⟨.inr rfl, feed_awaitingHead hs⟩
  · exact .inr (.inl ⟨rfl, feed_confirmSync hs⟩)
  · exact .inr (.inr (.inl ⟨rfl, feed_confirmOne hs⟩))
  · exact .inr (.inr (.inr (.inl ⟨rfl, feed_confirmZero hs⟩)))
  · exact .inr (.inr (.inr (.inr (.inl ⟨rfl, feed_rejectPending hs⟩))))
  · exact .inr (.inr (.inr (.inr (.inr ⟨rfl, feed_done hs⟩))))

/-- FEED as an instruction, when the decoder takes the pulse. -/
theorem execFeed_of_some {x : Nat} {s : State} {r : FeedResult} {d : Decoder} (h : feed x s.dec = some (r, d)) :
    exec (.feed x) s = .next ((s.withDec d).respond (.fed r)) := by
  simp only [exec, execFeed, h]

theorem execFeed_of_none {x : Nat} {s : State} (h : feed x s.dec = none) :
    exec (.feed x) s = .refused .feedInDone := by
  simp only [exec, execFeed, h]

/-- A FEED with a next state took the pulse. -/
theorem execFeed_next {x : Nat} {s t : State} (h : exec (.feed x) s = .next t) :
    ∃ r d, feed x s.dec = some (r, d) ∧ t = (s.withDec d).respond (.fed r) := by
  simp only [exec, execFeed] at h
  split at h
  · rename_i r d he
    exact ⟨r, d, he, by cases h; rfl⟩
  · cases h

@[simp] theorem fullReset_eq : fullReset = Decoder.atReset := rfl

end Sys2Proof.Machine
end

