-- ==== Sys2Proof/Laws/Encoder.lean ====
section
/-! SUPPORT. What the sequencer and ENCODE can do: the cases of ENC_NEXT, and each part of the pulse list by index. -/

namespace Sys2Proof.Machine

theorem advance_pkt (e : Encoder) : (advance e).pkt = e.pkt := by
  unfold advance
  split
  · split <;> rfl
  · rfl

theorem advance_loaded (e : Encoder) : (advance e).loaded = e.loaded := by
  unfold advance
  split
  · split <;> rfl
  · rfl

/-- Everything ENC_NEXT can do (43_encoder.md R109): hand out an element and count on, or nothing. -/
theorem next_cases (e : Encoder) :
    (∃ h : e.idx.val ≤ 121, e.loaded = true ∧
      currentElement e = some ⟨elem e.pkt ⟨e.idx.val, by omega⟩, levelOf e.idx.val, decide (e.idx.val = 121)⟩ ∧
      advance e = { e with idx := ⟨e.idx.val + 1, by omega⟩ }) ∨
    ((e.loaded = false ∨ e.idx.val = 122) ∧ currentElement e = none ∧ advance e = e) := by
  by_cases h : e.idx.val ≤ 121
  · cases hl : e.loaded with
    | true => exact .inl ⟨h, rfl, by simp [currentElement, h, hl], by simp [advance, h, hl]⟩
    | false => exact .inr ⟨.inl rfl, by simp [currentElement, hl], by simp [advance, hl]⟩
  · exact .inr ⟨.inr (by omega), by simp [currentElement, h], by simp [advance, h]⟩

theorem packetBits_length (p : Packet) : (packetBits p).length = 56 := rfl

/-- The bits in order of transmission, by number (20_memory.md R32). -/
theorem packetBits_get (p : Packet) (n : Fin 56) : (packetBits p)[n.val]? = some (dataBit p n) := by
  obtain ⟨n, hn⟩ := n
  have hq : n / 8 = 0 ∨ n / 8 = 1 ∨ n / 8 = 2 ∨ n / 8 = 3 ∨ n / 8 = 4 ∨ n / 8 = 5 ∨ n / 8 = 6 := by omega
  have hr : n % 8 = 0 ∨ n % 8 = 1 ∨ n % 8 = 2 ∨ n % 8 = 3 ∨ n % 8 = 4 ∨ n % 8 = 5 ∨ n % 8 = 6 ∨ n % 8 = 7 := by omega
  have e : n = 8 * (n / 8) + n % 8 := by omega
  unfold dataBit
  simp only
  generalize_proofs h
  generalize n / 8 = a at *
  generalize n % 8 = b at *
  subst e
  rcases hq with rfl | rfl | rfl | rfl | rfl | rfl | rfl <;>
    rcases hr with rfl | rfl | rfl | rfl | rfl | rfl | rfl | rfl <;> rfl

theorem bitPairs_length (bs : List Bool) : (bs.flatMap bitPair).length = 2 * bs.length := by
  induction bs with
  | nil => rfl
  | cons b bs ih => rw [List.flatMap_cons, List.length_append, ih]; cases b <;> simp [bitPair] <;> omega

theorem bitPairs_get (bs : List Bool) (n : Nat) :
    (bs.flatMap bitPair)[2 * n]? = (bs[n]?).map (fun b => if b then 436 else 245) ∧
    (bs.flatMap bitPair)[2 * n + 1]? = (bs[n]?).map (fun b => if b then 180 else 366) := by
  induction bs generalizing n with
  | nil => simp
  | cons b bs ih =>
    rw [List.flatMap_cons,
      show bitPair b = [if b then 436 else 245, if b then 180 else 366] by cases b <;> rfl]
    cases n with
    | zero => simp
    | succ n =>
      rw [show 2 * (n + 1) + 1 = (2 * n + 1) + 1 + 1 by omega, show 2 * (n + 1) = 2 * n + 1 + 1 by omega]
      simpa using ih n

theorem encodePulses_preamble (p : Packet) {k : Nat} (h : k < 8) : (encodePulses p)[k]? = preamble[k]? := by
  unfold encodePulses
  rw [List.append_assoc, List.getElem?_append_left (by simpa [preamble] using h)]

theorem encodePulses_data (p : Packet) {k : Nat} (h : k < 112) :
    (encodePulses p)[8 + k]? = ((packetBits p).flatMap bitPair)[k]? := by
  unfold encodePulses
  have l := bitPairs_length (packetBits p)
  rw [packetBits_length] at l
  rw [List.append_assoc, List.getElem?_append_right (by simp [preamble]),
    show 8 + k - preamble.length = k by simp [preamble], List.getElem?_append_left (by omega)]

theorem encodePulses_tail (p : Packet) (k : Nat) :
    (encodePulses p)[120 + k]? = ([Config.stopHigh, Config.idleGap] : List Nat)[k]? := by
  unfold encodePulses
  have l := bitPairs_length (packetBits p)
  rw [packetBits_length] at l
  rw [List.getElem?_append_right (by simp [preamble, l]),
    show 120 + k - (preamble ++ (packetBits p).flatMap bitPair).length = k by simp [preamble, l]]

end Sys2Proof.Machine
end

