-- ==== Sys2Proof/Laws/Words.lean ====
section
/-! SUPPORT. The views of a packet agree: seven bytes, 56 bits, and the bits in order of transmission. -/

namespace Sys2Proof

/-- The code and the argument of a command word put together from them. -/
theorem op_append (op : BitVec 4) (arg : BitVec 56) : CommandWord.op (op ++ arg) = op := by
  show @BitVec.extractLsb' (4 + 56) 56 4 (op ++ arg) = op
  rw [BitVec.extractLsb'_append_eq_of_le (by omega)]
  exact BitVec.extractLsb'_eq_self

theorem arg_append (op : BitVec 4) (arg : BitVec 56) : CommandWord.arg (op ++ arg) = arg := by
  show @BitVec.extractLsb' (4 + 56) 0 56 (op ++ arg) = arg
  rw [BitVec.extractLsb'_append_eq_of_add_le (by omega)]
  exact BitVec.extractLsb'_eq_self

theorem append_op_arg (w : CommandWord) : CommandWord.op w ++ CommandWord.arg w = w := by
  unfold CommandWord.op CommandWord.arg
  ext i hi
  show (@HAppend.hAppend (BitVec 4) (BitVec 56) (BitVec (4 + 56)) _ _ _)[i] = _
  simp only [BitVec.getElem_append, BitVec.getElem_extractLsb']
  split
  · simp [hi]
  · rw [show 56 + (i - 56) = i by omega]; simp [hi]

/-- The 56-bit view as one number, byte 0 the most significant (20_memory.md R34). -/
theorem Packet.toNat_toBits (p : Packet) :
    p.toBits.toNat = p.b0.toNat * 2 ^ 48 + p.b1.toNat * 2 ^ 40 + p.b2.toNat * 2 ^ 32 + p.b3.toNat * 2 ^ 24
      + p.b4.toNat * 2 ^ 16 + p.b5.toNat * 2 ^ 8 + p.b6.toNat := by
  show (@HAppend.hAppend (BitVec (8+8+8+8+8+8)) (BitVec 8) (BitVec (8+8+8+8+8+8+8)) _ _ _).toNat = _
  simp only [BitVec.toNat_append, Nat.shiftLeft_eq]
  have key : ∀ a b : Nat, b < 2 ^ 8 → (a * 2 ^ 8) ||| b = a * 2 ^ 8 + b := fun a b hb =>
    (Nat.mul_comm _ _ ▸ Nat.two_pow_add_eq_or_of_lt hb a).symm
  rw [key _ _ p.b1.isLt, key _ _ p.b2.isLt, key _ _ p.b3.isLt, key _ _ p.b4.isLt, key _ _ p.b5.isLt,
    key _ _ p.b6.isLt]
  omega

/-- No bit of a packet is lost in its 56-bit view. -/
theorem Packet.ofBits_toBits (p : Packet) : Packet.ofBits p.toBits = p := by
  have h := Packet.toNat_toBits p
  have h0 := p.b0.isLt
  have h1 := p.b1.isLt
  have h2 := p.b2.isLt
  have h3 := p.b3.isLt
  have h4 := p.b4.isLt
  have h5 := p.b5.isLt
  have h6 := p.b6.isLt
  obtain ⟨b0, b1, b2, b3, b4, b5, b6⟩ := p
  simp only [Packet.ofBits, Packet.mk.injEq]
  simp only at h h0 h1 h2 h3 h4 h5 h6
  refine ⟨?_, ?_, ?_, ?_, ?_, ?_, ?_⟩ <;>
    (apply BitVec.eq_of_toNat_eq; rw [BitVec.extractLsb'_toNat, h, Nat.shiftRight_eq_div_pow]; omega)

theorem Packet.toBits_ofBits (w : PacketWord) : (Packet.ofBits w).toBits = w := by
  apply BitVec.eq_of_toNat_eq
  rw [Packet.toNat_toBits]
  simp only [Packet.ofBits, BitVec.extractLsb'_toNat, Nat.shiftRight_eq_div_pow]
  have := w.isLt
  omega

end Sys2Proof
end

