-- ==== Sys2Proof/Laws/PerInstr.lean ====
section
/-! SUPPORT. The family EncodesOpcode: the word of an instruction lies in its row of the opcode table. -/

namespace Sys2Proof.Laws.EncodesOpcode

/-- The encoded word carries the match bits of the instruction's row of spec/opcode_table.json; a packet has no
match bits. -/
def Statement (i : Instr) : Prop :=
  match Sys2Proof.encode i with
  | .command w => ∃ row ∈ opcodeRows, row.opcode = i.opcode ∧ w &&& row.mask = row.pattern
  | .packet _ => i.opcode = Opcode.packet

theorem mask_append (op : BitVec 4) (arg : BitVec 56) :
    (op ++ arg : BitVec (4 + 56)) &&& (15#4 ++ 0#56 : BitVec (4 + 56)) = op ++ 0#56 := by
  rw [BitVec.and_append, show op &&& 15#4 = op from BitVec.and_allOnes, BitVec.and_zero]

/-- A word with code `op` meets the row whose match bits are `op`. -/
theorem meets_row {i : Instr} {op : BitVec 4} {arg : BitVec 56} {row : OpcodeRow}
    (he : Sys2Proof.encode i = command op arg) (hm : row ∈ opcodeRows) (ho : row.opcode = i.opcode)
    (hmask : row.mask = (15#4 ++ 0#56 : BitVec (4 + 56))) (hp : row.pattern = (op ++ 0#56 : BitVec (4 + 56))) :
    Statement i := by
  unfold Statement
  rw [he]
  exact ⟨row, hm, ho, by rw [hmask, hp]; exact mask_append op arg⟩

theorem classify (d : Nat) : Statement (.classify d) :=
  meets_row (row := ⟨.classify, 0x100000000000000, 0xF00000000000000⟩) rfl (by decide) rfl (by decide) (by decide)

theorem feed (d : Nat) : Statement (.feed d) :=
  meets_row (row := ⟨.feed, 0x200000000000000, 0xF00000000000000⟩) rfl (by decide) rfl (by decide) (by decide)

theorem reset : Statement .reset :=
  meets_row (row := ⟨.reset, 0x300000000000000, 0xF00000000000000⟩) rfl (by decide) rfl (by decide) (by decide)

theorem getframe : Statement .getframe :=
  meets_row (row := ⟨.getframe, 0x400000000000000, 0xF00000000000000⟩) rfl (by decide) rfl (by decide) (by decide)

theorem parity (b : Byte) : Statement (.parity b) :=
  meets_row (row := ⟨.parity, 0x500000000000000, 0xF00000000000000⟩) rfl (by decide) rfl (by decide) (by decide)

theorem checksum (p : Packet) : Statement (.checksum p) :=
  meets_row (row := ⟨.checksum, 0x600000000000000, 0xF00000000000000⟩) rfl (by decide) rfl (by decide) (by decide)

theorem extract (p : Packet) : Statement (.extract p) :=
  meets_row (row := ⟨.extract, 0x700000000000000, 0xF00000000000000⟩) rfl (by decide) rfl (by decide) (by decide)

theorem validate (p : Packet) : Statement (.validate p) :=
  meets_row (row := ⟨.validate, 0x800000000000000, 0xF00000000000000⟩) rfl (by decide) rfl (by decide) (by decide)

theorem encode (p : Packet) : Statement (.encode p) :=
  meets_row (row := ⟨.encode, 0x900000000000000, 0xF00000000000000⟩) rfl (by decide) rfl (by decide) (by decide)

theorem encLoad (p : Packet) : Statement (.encLoad p) :=
  meets_row (row := ⟨.encLoad, 0xA00000000000000, 0xF00000000000000⟩) rfl (by decide) rfl (by decide) (by decide)

theorem encNext : Statement .encNext :=
  meets_row (row := ⟨.encNext, 0xB00000000000000, 0xF00000000000000⟩) rfl (by decide) rfl (by decide) (by decide)

theorem encRestart : Statement .encRestart :=
  meets_row (row := ⟨.encRestart, 0xC00000000000000, 0xF00000000000000⟩) rfl (by decide) rfl (by decide) (by decide)

theorem assemble (channel : BitVec 2) (sensorId : BitVec 13) (humidity : BitVec 7) (temperatureRaw : BitVec 11) :
    Statement (.assemble channel sensorId humidity temperatureRaw) :=
  meets_row (row := ⟨.assemble, 0xD00000000000000, 0xF00000000000000⟩) rfl (by decide) rfl (by decide) (by decide)

theorem reserved0 : Statement .reserved0 :=
  meets_row (row := ⟨.reserved0, 0x000000000000000, 0xF00000000000000⟩) rfl (by decide) rfl (by decide) (by decide)

theorem reserved14 : Statement .reserved14 :=
  meets_row (row := ⟨.reserved14, 0xE00000000000000, 0xF00000000000000⟩) rfl (by decide) rfl (by decide) (by decide)

theorem reserved15 : Statement .reserved15 :=
  meets_row (row := ⟨.reserved15, 0xF00000000000000, 0xF00000000000000⟩) rfl (by decide) rfl (by decide) (by decide)

theorem packet (p : Packet) : Statement (.packet p) := rfl

end Sys2Proof.Laws.EncodesOpcode
end

