-- ==== Sys2Proof/Laws/Ports.lean ====
section
/-! SUPPORT. What a cycle of the signal-level binding can do, and what the ports show. -/

namespace Sys2Proof.Machine

theorem pulseReady_iff (s : State) : (portOut s).pulseReady = true ↔ s.dec.state ≠ .done := by
  show (!decide (s.dec.state = .done)) = true ↔ _
  simp

theorem frameValid_iff (s : State) : (portOut s).frameValid = true ↔ s.dec.state = .done := by
  show decide (s.dec.state = .done) = true ↔ _
  simp

/-- Whatever a cycle shows as a result is the result of some FEED, so its codes are in range. -/
theorem result_ports (s : State) : ∃ r,
    (portOut s).resCode = FeedResult.code r ∧ (portOut s).resCause = FeedResult.causeCode r :=
  ⟨_, rfl, rfl⟩

/-- After a step that returns a FEED's result the ports show it. -/
theorem result_ports_fed {s : State} {r : FeedResult} (h : s.response = .fed r) :
    (portOut s).resValid = true ∧ (portOut s).resCode = FeedResult.code r ∧
      (portOut s).resCause = FeedResult.causeCode r := by
  simp [portOut, fedResult, h]

theorem durationOnPort_toNat {d : Nat} (h : d < 65536) : (durationOnPort d).toNat = d := by
  unfold durationOnPort
  rw [if_pos (show d < 2 ^ Config.durW from h), BitVec.toNat_ofNat, Nat.mod_eq_of_lt h]

theorem cycle_rst {i : PortIn} (s : State) (h : i.rst = true) :
    cycle i s = (((s.withDec Decoder.atReset).withEnc Encoder.atReset).respond .none).tick := by
  simp [cycle, h]

theorem cycle_dec {i : PortIn} (s : State) (h : i.rst = false) : (cycle i s).dec = (decCycle i s.dec).2 := by
  simp [cycle, h]

theorem cycle_enc {i : PortIn} (s : State) (h : i.rst = false) : (cycle i s).enc = encCycle s.cycles i s.enc := by
  simp [cycle, h]

theorem cycle_input (i : PortIn) (s : State) : (cycle i s).input = s.input := by
  cases h : i.rst <;> simp [cycle, h]

theorem cycle_cycles (i : PortIn) (s : State) : (cycle i s).cycles = s.cycles + 1 := by
  cases h : i.rst <;> simp [cycle, h]

/-- Everything a cycle can do to the decoder. -/
theorem decCycle_cases (i : PortIn) (d : Decoder) :
    (i.decReset = true ∧ decCycle i d = (none, fullReset)) ∨
    (i.decReset = false ∧ i.pulseValid = true ∧
      ∃ r d', feed i.pulseDur.toNat d = some (r, d') ∧ decCycle i d = (some r, d')) ∨
    (i.decReset = false ∧ (i.pulseValid = false ∨ feed i.pulseDur.toNat d = none) ∧ decCycle i d = (none, d)) := by
  cases h : i.decReset
  · cases hv : i.pulseValid
    · exact .inr (.inr ⟨rfl, .inl rfl, by simp [decCycle, h, hv]⟩)
    · cases hf : feed i.pulseDur.toNat d with
      | none => exact .inr (.inr ⟨rfl, .inr rfl, by simp [decCycle, h, hv, hf]⟩)
      | some q => exact .inr (.inl ⟨rfl, rfl, q.1, q.2, rfl, by simp [decCycle, h, hv, hf]⟩)
  · exact .inl ⟨rfl, by simp [decCycle, h]⟩

end Sys2Proof.Machine
end

