-- ==== Sys2Proof/Laws/Runs.lean ====
section
/-! SUPPORT. Runs of operations, and the count of ENC_NEXTs since the last restart. -/

namespace Sys2Proof.Safety

open Sys2Proof.Machine

theorem runOps_nil (s : State) : runOps [] s = .next ([], s) := rfl

/-- A run whose first operation answers goes on from its state. -/
theorem runOps_cons_next {i : Instr} {ops : List Instr} {s t u : State} {rs : List Response}
    (h : exec i s = .next t) (hr : runOps ops t = .next (rs, u)) :
    runOps (i :: ops) s = .next (t.response :: rs, u) := by
  simp only [runOps, h, hr]

theorem nextsSinceRestart_nil : nextsSinceRestart [] = 0 := rfl

theorem nextsSinceRestart_concat (ops : List Instr) (i : Instr) :
    nextsSinceRestart (ops ++ [i]) = if i = .encRestart then 0 else nextsSinceRestart ops + 1 := by
  simp [nextsSinceRestart, List.foldl_append]

theorem nextsSinceRestart_replicate (n : Nat) : nextsSinceRestart (List.replicate n .encNext) = n := by
  induction n with
  | zero => rfl
  | succ n ih => rw [List.replicate_succ', nextsSinceRestart_concat, ih, if_neg (by decide)]

end Sys2Proof.Safety
end

