-- ==== Sys2Proof/Laws/Validator.lean ====
section
/-! SUPPORT. What VALIDATE, EXTRACT and ASSEMBLE can do: when a packet is accepted, each field as a number, and the
parity bit that `withpar` puts in front. -/

namespace Sys2Proof.Machine

theorem validate_ok_iff (p : Packet) (r : Reading) :
    validate p = .ok r ↔ parityGood p.b1 = true ∧ parityGood p.b2 = true ∧ parityGood p.b3 = true ∧
      parityGood p.b4 = true ∧ parityGood p.b5 = true ∧ checksumGood p = true ∧ extract p = r := by
  unfold validate
  cases parityGood p.b1 <;> cases parityGood p.b2 <;> cases parityGood p.b3 <;> cases parityGood p.b4 <;>
    cases parityGood p.b5 <;> cases checksumGood p <;> simp

theorem checksumGood_iff (p : Packet) : checksumGood p = true ↔ sum8 p = p.b6 := by simp [checksumGood]

/-- The sum as an 8-bit adder that wraps gives it (42_validator.md R91). -/
theorem sum8_eq (p : Packet) : sum8 p = p.b0 + p.b1 + p.b2 + p.b3 + p.b4 + p.b5 := by
  apply BitVec.eq_of_toNat_eq
  simp only [sum8, BitVec.toNat_ofNat, BitVec.toNat_add]
  omega

theorem toNat_append {m n : Nat} (a : BitVec m) (b : BitVec n) : (a ++ b).toNat = a.toNat * 2 ^ n + b.toNat := by
  rw [BitVec.toNat_append, Nat.shiftLeft_eq, Nat.mul_comm, Nat.two_pow_add_eq_or_of_lt b.isLt]

theorem low7_toNat (b : Byte) : (low7 b).toNat = b.toNat % 128 := by
  rw [low7, BitVec.extractLsb'_toNat]
  simp

theorem channelOf_toNat (p : Packet) : (channelOf p).toNat = p.b0.toNat / 64 := by
  rw [channelOf, BitVec.extractLsb'_toNat, Nat.shiftRight_eq_div_pow]
  have := p.b0.isLt
  omega

theorem sensorIdOf_toNat (p : Packet) : (sensorIdOf p).toNat = p.b0.toNat % 64 * 128 + p.b1.toNat % 128 := by
  show (@HAppend.hAppend (BitVec 6) (BitVec 7) (BitVec (6 + 7)) _ _ _).toNat = _
  rw [toNat_append, low7, BitVec.extractLsb'_toNat, BitVec.extractLsb'_toNat]
  simp

theorem temperatureRawOf_toNat (p : Packet) :
    (temperatureRawOf p).toNat = p.b4.toNat % 16 * 128 + p.b5.toNat % 128 := by
  show (@HAppend.hAppend (BitVec 4) (BitVec 7) (BitVec (4 + 7)) _ _ _).toNat = _
  rw [toNat_append, low7, BitVec.extractLsb'_toNat, BitVec.extractLsb'_toNat]
  simp

theorem low7_withpar : ∀ v : BitVec 7, low7 (withpar v) = v := by decide

theorem parityGood_withpar : ∀ v : BitVec 7, parityGood (withpar v) = true := by decide

/-- A good byte is determined by its low seven bits. -/
theorem eq_withpar_low7 : ∀ b : Byte, parityGood b = true → b = withpar (low7 b) := by decide

theorem parityGood_flip :
    ∀ (b : Byte) (k : Fin 8), parityGood b = true → parityGood (b ^^^ BitVec.twoPow 8 k.val) = false := by decide

end Sys2Proof.Machine
end

