-- ==== Sys2Proof/Tests/Slice0.lean ====
section
/-! SUPPORT. Tests. Expected values are those of spec/95_test_vectors.md (S, V, P numbers) or follow by hand from the
rule named. `witness_` theorems show values that meet the hypotheses of a statement, clause by clause. -/

namespace Sys2Proof.Tests

open Sys2Proof.Machine Sys2Proof.Safety

/-! ### Helpers -/

/-- The state after a step that has one. -/
def after (o : Host.Outcome State Fault Refusal) : Option State :=
  match o with
  | .next t => some t
  | _ => none

/-- What a step returns. -/
def answer (o : Host.Outcome State Fault Refusal) : Option Response := (after o).map State.response

/-- What a step returns and the decoder it leaves. -/
def fedTo (o : Host.Outcome State Fault Refusal) : Option (Response × Decoder) :=
  (after o).map fun t => (t.response, t.dec)

/-- Whether a step is refused as a FEED in Done. -/
def refusedInDone (o : Host.Outcome State Fault Refusal) : Bool :=
  match o with
  | .refused .feedInDone => true
  | _ => false

/-- A buffer that holds these bytes from address 0 on. -/
def bufOf (p : Packet) : Memory :=
  Memory.write (Memory.write (Memory.write (Memory.write (Memory.write (Memory.write (Memory.write []
    0 p.b0) 1 p.b1) 2 p.b2) 3 p.b3) 4 p.b4) 5 p.b5) 6 p.b6

/-- The vectors' notation (state, sc, bi, bc, buf). -/
def dec (st : DecodeState) (sc : Nat) (bi : Fin 25) (bc : Fin 8) (p : Packet) : Decoder :=
  { state := st, syncCount := sc, bitCount := bc, byteIndex := bi, buf := bufOf p }

/-- The power-on state with this decoder. -/
def at' (d : Decoder) : State := { State.reset with dec := d }

/-- The power-on state with this encoder. -/
def enc (p : Packet) (i : Fin 123) (l : Bool) : State := { State.reset with enc := { pkt := p, idx := i, loaded := l } }

/-- The fixed packet PK of the vectors. -/
def pk : Packet := ⟨0xC0, 0xAA, 0x44, 0xB2, 0x05, 0x9F, 0x04⟩

/-- PK as it stands in the buffer before the frame completes (P1). -/
def kp : Packet := ⟨0x03, 0x55, 0x22, 0x4D, 0xA0, 0xF9, 0x40⟩

def zeros : Packet := Packet.zero
def sync4 : Decoder := dec .awaitingHead 4 0 0 zeros
def cs0 : Decoder := dec .confirmSync 0 0 0 zeros
def cs3 : Decoder := dec .confirmSync 3 0 0 zeros
def inDone : Decoder := dec .done 4 7 0 pk

/-- A cycle in which nothing is driven. -/
def quiet : PortIn :=
  { rst := false, pulseValid := false, pulseDur := 0, decReset := false, encLoad := false, encPktIn := 0,
    encRestart := false, encReady := false }

/-! ### WellFormed: an ill-formed term for each check, refused -/

theorem test_illFormed_classify : (Instr.classify 65536).wellFormed = false := by decide
theorem test_illFormed_feed : (Instr.feed 65536).wellFormed = false := by decide
theorem test_wellFormed_boundary :
    (Instr.classify 65535).wellFormed = true ∧ (Instr.feed 65535).wellFormed = true := by decide
/-- An ill-formed duration does not survive its 16 bits. -/
theorem test_illFormed_is_not_encodable : decode (encode (.feed 65536)) = .feed 0 := by decide

/-! ### Decode: words written out from 30_encoding.md R60 -/

/-- V13. -/
theorem test_decode_classify : decodeTableWord 64 0x1000000000004B1 = some (.classify 1201) := by decide
/-- 95_test_vectors.md 6. -/
theorem test_decode_feed : decodeTableWord 60 0x2000000000007D0 = some (.feed 2000) := by decide
theorem test_decode_reset : decodeTableWord 64 0x300000000000000 = some .reset := by decide
theorem test_decode_getframe : decodeTableWord 64 0x400000000000000 = some .getframe := by decide
/-- V56. -/
theorem test_decode_parity : decodeTableWord 64 0x50000000000002A = some (.parity 0x2A) := by decide
/-- V58. -/
theorem test_decode_checksum : decodeTableWord 64 0x6C0AA44B2059F04 = some (.checksum pk) := by decide
/-- V78. -/
theorem test_decode_extract : decodeTableWord 64 0x7C0AA44B2059F04 = some (.extract pk) := by decide
/-- V66. -/
theorem test_decode_validate :
    decodeTableWord 64 0x8C0AA4432059F04 = some (.validate ⟨0xC0, 0xAA, 0x44, 0x32, 0x05, 0x9F, 0x04⟩) := by decide
/-- V96. -/
theorem test_decode_encode : decodeTableWord 64 0x9C0AA44B2059F04 = some (.encode pk) := by decide
/-- V99. -/
theorem test_decode_encLoad : decodeTableWord 64 0xAC0AA44B2059F04 = some (.encLoad pk) := by decide
theorem test_decode_encNext : decodeTableWord 64 0xB00000000000000 = some .encNext := by decide
theorem test_decode_encRestart : decodeTableWord 64 0xC00000000000000 = some .encRestart := by decide
/-- V92, V93. -/
theorem test_decode_assemble :
    decodeTableWord 64 0xD0000017FFF1FFF = some (.assemble 2 8191 99 2047) ∧
    decodeTableWord 64 0xD000000CE23FC00 = some (.assemble 1 5000 127 1024) := by decide
theorem test_decode_reserved :
    decodeTableWord 64 0x000000000000000 = some .reserved0 ∧ decodeTableWord 64 0xE00000000000000 = some .reserved14 ∧
    decodeTableWord 64 0xF00000000000000 = some .reserved15 := by decide
/-- 30_encoding.md R51: byte 0 in bits 55 to 48. -/
theorem test_decode_packet : decodeTableWord 56 0xC0AA44B2059F04 = some (.packet pk) := by decide
/-- A word of no width of the table, and one with a bit above its top bit, are rejected by name. -/
theorem test_decode_rejects :
    decodeRaw 16 0 = .error (.noSuchWidth 16) ∧ decodeRaw 64 (2 ^ 60) = .error (.bitsAboveWord 64 (2 ^ 60)) ∧
    decodeRaw 56 (2 ^ 56) = .error (.bitsAboveWord 56 (2 ^ 56)) ∧ decodeTableWord 64 (2 ^ 60) = none := by
  refine ⟨rfl, rfl, rfl, rfl⟩
/-- The encoder writes the words of V9 and V95. -/
theorem test_encode_words :
    encode (.classify 499) = .command 0x1000000000001F3 ∧
    encode (.assemble 2 1234 45 1274) = .command 0xD00000113496CFA := by decide
/-- opcode_table.json: no two rows meet in a word. -/
theorem test_opcode_rows_disjoint :
    opcodeRows.Pairwise fun a b => a.pattern &&& (a.mask &&& b.mask) ≠ b.pattern &&& (a.mask &&& b.mask) := by decide

/-! ### Memory -/

/-- Writing what an unlisted address reads as removes the entry. -/
theorem test_memory_write_zero : Memory.write [(3, 7)] 3 0 = [] := by decide
theorem test_memory_order : Memory.write (Memory.write [] 24 1) 2 9 = [(2, 9), (24, 1)] := by decide

/-! ### Classifier -/

/-- V3, V4: an inclusive lower bound (S1). -/
theorem test_classify_zeroMin :
    answer (exec (.classify 189) State.reset) = some (.category .tooShort) ∧
    answer (exec (.classify 190) State.reset) = some (.category .zeroBit) := by decide
/-- V11, V12, V13: SYNC_MAX is no bound of the category. -/
theorem test_classify_sync :
    answer (exec (.classify 671) State.reset) = some (.category .sync) ∧
    answer (exec (.classify 1200) State.reset) = some (.category .sync) ∧
    answer (exec (.classify 1201) State.reset) = some (.category .tooLong) := by decide

/-! ### Decoder -/

/-- V26: a tail above MAX_PULSE in ConfirmSync is SyncTailOutOfRange, not TooLongPulse. -/
theorem test_feed_longTail :
    fedTo (exec (.feed 1201) (at' cs0)) = some (.fed (.rejected .syncTailOutOfRange), Decoder.atReset) := by decide
/-- V34: completion reverses the seven bytes after the last insertion. -/
theorem test_feed_completes :
    fedTo (exec (.feed 366) (at' (dec .confirmZero 4 6 7 kp))) = some (.fed .frameReady, inDone) := by decide
/-- V44 (b). -/
theorem test_reset_discards :
    fedTo (exec .reset (at' (dec .confirmOne 4 0 1 ⟨0x80, 0, 0, 0, 0, 0, 0⟩))) = some (.none, Decoder.atReset) := by
  decide
/-- V40. -/
theorem test_getframe_done : answer (exec .getframe (at' inDone)) = some (.frame (some pk)) := by decide
/-- V45: one pulse pair before completion. -/
theorem test_getframe_before : answer (exec .getframe (at' (dec .awaitingHead 4 6 7 kp))) = some (.frame none) := by
  decide

/-! ### Validator -/

/-- V54, V57. -/
theorem test_parity_good :
    answer (exec (.parity 0x81) State.reset) = some (.parity true) ∧
    answer (exec (.parity 0xAA) State.reset) = some (.parity true) := by decide
/-- V52, V55. -/
theorem test_parity_bad :
    answer (exec (.parity 0x80) State.reset) = some (.parity false) ∧
    answer (exec (.parity 0x7F) State.reset) = some (.parity false) := by decide
/-- V60: the sum wraps. -/
theorem test_checksum_good :
    answer (exec (.checksum ⟨0xFF, 0xFF, 0xFF, 0xFF, 0xFF, 0xFF, 0xFA⟩) State.reset) =
      some (.checksum true 0xFA) := by decide
/-- V62. -/
theorem test_checksum_bad :
    answer (exec (.checksum ⟨0xC0, 0xAA, 0x44, 0xB2, 0x05, 0x9F, 0x05⟩) State.reset) =
      some (.checksum false 0x04) := by decide
/-- V81: bit 0 of byte 0 is bit 7 of sensorId. -/
theorem test_extract_fields :
    answer (exec (.extract ⟨0xC1, 0xAA, 0x44, 0xB2, 0x05, 0x9F, 0x04⟩) State.reset) =
      some (.fields ⟨3, 170, 50, 671, -353, -3154, 0x44⟩) := by decide
/-- V79. -/
theorem test_extract_ones :
    answer (exec (.extract ⟨0xFF, 0xFF, 0xFF, 0xFF, 0xFF, 0xFF, 0xFF⟩) State.reset) =
      some (.fields ⟨3, 8191, 127, 2047, 1023, 21614, 0xFF⟩) := by decide
/-- V64: the lower of two bad parities, although the checksum is bad too. -/
theorem test_validate_parity :
    answer (exec (.validate ⟨0xC0, 0x2A, 0x44, 0x32, 0x05, 0x9F, 0x04⟩) State.reset) =
      some (.validation (.parityMismatch 1)) := by decide
/-- V75: bits 6 to 4 of byte 4 are ignored. -/
theorem test_validate_ok :
    answer (exec (.validate ⟨0xC0, 0xAA, 0x44, 0xB2, 0xF5, 0x9F, 0xF4⟩) State.reset) =
      some (.validation (.ok ⟨3, 42, 50, 671, -353, -3154, 0x44⟩)) := by decide

/-! ### Encoder -/

/-- V96: the preamble, byte 0xC0, and the first bit of byte 0xAA. -/
theorem test_encode_begins :
    (encodePulses pk).take 26 =
      [662, 564, 662, 564, 662, 564, 662, 564,
       436, 180, 436, 180, 245, 366, 245, 366, 245, 366, 245, 366, 245, 366, 245, 366, 436, 180] := by decide
/-- V97: the last bit of byte 6, the stop pulse and the gap. -/
theorem test_elem_ends :
    elem pk 118 = 245 ∧ elem pk 119 = 366 ∧ elem pk 120 = 100 ∧ elem pk 121 = Config.idleGap ∧ elem pk 24 = 436 :=
  ⟨rfl, rfl, rfl, rfl, rfl⟩
/-- V99: a load in the middle of a sequence starts at element 0. -/
theorem test_encLoad_restarts :
    after (exec (.encLoad pk) (enc zeros 57 true)) = some (enc pk 0 true) := by decide
/-- V99: the first element. -/
theorem test_encNext_first :
    answer (exec .encNext (enc pk 0 true)) = some (.element (some ⟨662, .high, false⟩)) := by decide
/-- V99: the gap is the last element, and the index stops at 122. -/
theorem test_encNext_last :
    exec .encNext (enc pk 121 true) =
      .next { enc pk 122 true with response := .element (some ⟨Config.idleGap, .low, true⟩) } := rfl
/-- V99. -/
theorem test_encRestart : after (exec .encRestart (enc pk 2 true)) = some (enc pk 0 true) := by decide
/-- V92. -/
theorem test_assemble :
    answer (exec (.assemble 2 8191 99 2047) State.reset) =
      some (.assembled ⟨0xBF, 0xFF, 0x44, 0x63, 0x0F, 0xFF, 0x73⟩) := by decide
/-- V94. -/
theorem test_assemble_small :
    answer (exec (.assemble 0 1 0 1) State.reset) =
      some (.assembled ⟨0x00, 0x81, 0x44, 0x00, 0x00, 0x81, 0x46⟩) := by decide

/-! ### Reserved codes and the packet word -/

/-- 30_encoding.md R55 (g). -/
theorem test_reserved :
    after (exec .reserved0 (at' inDone)) = some (at' inDone) ∧
    after (exec .reserved14 (at' inDone)) = some (at' inDone) ∧
    after (exec .reserved15 (at' inDone)) = some (at' inDone) := by decide
/-- 30_encoding.md R51, fields by hand from the bits of C0 AA 44 B2 05 9F 04. -/
theorem test_packet :
    answer (exec (.packet pk) State.reset) =
      some (.layout ⟨3, 42, true, false, true, false, true, 0x44, 50, 0, 671, 0x04⟩) := by decide

/-! ### Step, ports, pseudo-operations -/

/-- A word presented at reset is the first instruction that runs. -/
theorem test_step_from_reset :
    after (step (State.reset.withFetchWord 64 0x200000000000296)) =
      some { at' cs0 with response := .fed .cont } := by decide
/-- V84, V63 on the ports: the two's complement temperatures, and val_ok. -/
theorem test_ports_done :
    (portOut (at' inDone)).tempC10 = 0x69F ∧ (portOut (at' inDone)).tempF100 = 0xF3AE ∧
    (portOut (at' inDone)).valOk = true ∧ (portOut (at' inDone)).frame = 0xC0AA44B2059F04 ∧
    (portOut (at' inDone)).pulseReady = false ∧ (portOut (at' inDone)).frameValid = true := by decide
/-- 10_state.md R13: `dbg_sync` saturates. -/
theorem test_ports_saturate : (portOut (at' (dec .awaitingHead 8 0 0 zeros))).dbgSync = 7 := by decide
/-- 10_state.md R23: RESET wins over a pulse of the same cycle. -/
theorem test_cycle_reset_wins :
    (cycle { quiet with decReset := true, pulseValid := true, pulseDur := 662 } (at' cs3)).dec = Decoder.atReset := by
  decide
/-- 30_encoding.md R62. -/
theorem test_pseudo :
    PseudoOp.expand .syncpair = [.feed 662, .feed 564] ∧
    (PseudoOp.expand (.byte 0xC0)).take 6 =
      [.feed 436, .feed 180, .feed 436, .feed 180, .feed 245, .feed 366] := by decide

/-! ### Witnesses: the classifier -/

theorem witness_ClassifyGivesTheIntervalsCategory :
    [1201, 1200, 500, 499, 380, 379, 190, 189, 0].map (fun d => answer (exec (.classify d) (at' inDone))) =
      [.tooLong, .sync, .sync, .oneBit, .oneBit, .zeroBit, .zeroBit, .tooShort, .tooShort].map
        (fun c => some (.category c)) := by decide
theorem witness_ClassifyIsMonotoneAndStateless : (189 : Nat) ≤ 190 ∧ (190 : Nat) ≤ 190 := by decide

/-! ### Witnesses: FEED -/

/-- V21, V22: all clauses at sync count 4. -/
theorem witness_HeadPulseDispatch :
    sync4.state = .awaitingHead ∧ sync4.syncCount = 4 ∧
    [1201, 1200, 500, 499, 380, 379, 190, 189].map (fun d => fedTo (exec (.feed d) (at' sync4))) =
      [some (.fed (.rejected .tooLongPulse), Decoder.atReset),
       some (.fed .cont, dec .confirmSync 4 0 0 zeros), some (.fed .cont, dec .confirmSync 4 0 0 zeros),
       some (.fed .cont, dec .confirmOne 4 0 0 zeros), some (.fed .cont, dec .confirmOne 4 0 0 zeros),
       some (.fed .cont, dec .confirmZero 4 0 0 zeros), some (.fed .cont, dec .confirmZero 4 0 0 zeros),
       some (.fed .cont, sync4)] := by decide
/-- V38: the clause of another count, with 3 and 5. -/
theorem witness_HeadPulseDispatch_premature :
    [(3, 190), (3, 499), (5, 436)].map (fun q => fedTo (exec (.feed q.2) (at' (dec .awaitingHead q.1 0 0 zeros)))) =
      [some (.fed .cont, dec .rejectPending 3 0 0 zeros), some (.fed .cont, dec .rejectPending 3 0 0 zeros),
       some (.fed .cont, dec .rejectPending 5 0 0 zeros)] := by decide
/-- V15, V20. -/
theorem witness_FeedInUnknownActsAsInAwaitingHead :
    State.reset.dec.state = .unknown ∧
    fedTo (exec (.feed 189) State.reset) = some (.fed .cont, dec .awaitingHead 0 0 0 zeros) ∧
    fedTo (exec (.feed 1201) State.reset) = some (.fed (.rejected .tooLongPulse), Decoder.atReset) := by decide
/-- V25. -/
theorem witness_LongSyncTailRejects :
    cs0.state = .confirmSync ∧
    fedTo (exec (.feed 671) (at' cs0)) = some (.fed (.rejected .syncTailOutOfRange), Decoder.atReset) := by decide
/-- V23, V24. -/
theorem witness_SyncTailInRangeCountsAPair :
    [500, 670].map (fun d => fedTo (exec (.feed d) (at' cs0))) =
      [some (.fed .cont, dec .awaitingHead 1 0 0 zeros), some (.fed .cont, dec .awaitingHead 1 0 0 zeros)] := by decide
/-- V29, V30, V31a: the clauses with a count that becomes 4. -/
theorem witness_ShortSyncTailIsCountedAndRedispatched :
    cs3.state = .confirmSync ∧ cs3.syncCount + 1 = 4 ∧
    [499, 380, 379, 190, 189].map (fun d => fedTo (exec (.feed d) (at' cs3))) =
      [some (.fed .cont, dec .confirmOne 4 0 0 zeros), some (.fed .cont, dec .confirmOne 4 0 0 zeros),
       some (.fed .cont, dec .confirmZero 4 0 0 zeros), some (.fed .cont, dec .confirmZero 4 0 0 zeros),
       some (.fed .cont, sync4)] := by decide
/-- V27, V28b, V31e: the clauses with a count that does not. -/
theorem witness_ShortSyncTailIsCountedAndRedispatched_premature :
    [499, 190, 0].map (fun d => fedTo (exec (.feed d) (at' cs0))) =
      [some (.fed .cont, dec .rejectPending 1 0 0 zeros), some (.fed .cont, dec .rejectPending 1 0 0 zeros),
       some (.fed .cont, dec .awaitingHead 1 0 0 zeros)] ∧
    fedTo (exec (.feed 436) (at' (dec .confirmSync 4 0 0 zeros))) =
      some (.fed .cont, dec .rejectPending 5 0 0 zeros) := by decide
/-- V33 and V32's last row: a bit inside a byte, and the eighth. -/
theorem witness_DataTailInsertsTheBit :
    fedTo (exec (.feed 1) (at' (dec .confirmOne 4 0 2 ⟨0x40, 0, 0, 0, 0, 0, 0⟩))) =
      some (.fed .cont, dec .awaitingHead 4 0 3 ⟨0xA0, 0, 0, 0, 0, 0, 0⟩) ∧
    fedTo (exec (.feed 366) (at' (dec .confirmZero 4 0 7 ⟨0x06, 0, 0, 0, 0, 0, 0⟩))) =
      some (.fed .cont, dec .awaitingHead 4 1 0 ⟨0x03, 0, 0, 0, 0, 0, 0⟩) ∧
    Memory.wf (bufOf ⟨0x06, 0, 0, 0, 0, 0, 0⟩) = true := by decide
/-- V34's start state. -/
theorem witness_SeventhByteCompletesTheFrame :
    (dec .confirmZero 4 6 7 kp).state = .confirmZero ∧ Memory.wf (bufOf kp) = true ∧
    DecoderInv (dec .confirmZero 4 6 7 kp) := by decide
/-- V39. -/
theorem witness_RejectPendingRejectsAnyPulse :
    fedTo (exec (.feed 662) (at' (dec .rejectPending 0 0 0 zeros))) =
      some (.fed (.rejected .prematureDataBit), Decoder.atReset) := by decide
/-- V40. -/
theorem witness_FeedInDoneHasNoStep : inDone.state = .done ∧ refusedInDone (exec (.feed 100) (at' inDone)) = true := by
  decide
theorem witness_FeedCompletesOutsideDone : sync4.state ≠ .done := by decide
/-- The four causes; the last needs a state that no run reaches. -/
theorem witness_RejectionResetsAndTheStateDecidesTheCause :
    [answer (exec (.feed 1201) (at' sync4)), answer (exec (.feed 671) (at' cs3)),
     answer (exec (.feed 0) (at' (dec .rejectPending 3 0 0 zeros))),
     answer (exec (.feed 0) (at' (dec .confirmOne 4 24 7 zeros)))] =
      [some (.fed (.rejected .tooLongPulse)), some (.fed (.rejected .syncTailOutOfRange)),
       some (.fed (.rejected .prematureDataBit)), some (.fed (.rejected .bufferOverflow))] := by decide
/-- V24, V25, V31d: counted, cleared, and left alone. -/
theorem witness_SyncCountCountsConfirmSyncFeeds :
    (after (exec (.feed 670) (at' cs0))).map (·.dec.syncCount) = some 1 ∧
    (after (exec (.feed 671) (at' cs3))).map (·.dec.syncCount) = some 0 ∧
    (after (exec (.feed 100) (at' sync4))).map (·.dec.syncCount) = some 4 := by decide
theorem witness_SaturatedDurationsActAlike :
    (1201 : Nat) ≤ 1201 ∧ fedTo (exec (.feed (min 5000 1201)) (at' sync4)) = fedTo (exec (.feed 5000) (at' sync4)) := by
  decide
theorem witness_SaturatingSyncCounterIsIndistinguishable :
    answer (exec (.feed 436) (at' (dec .awaitingHead 9 0 0 zeros))) = some (.fed .cont) ∧
    answer (exec (.feed 436) (at' (dec .awaitingHead (min 5 9) 0 0 zeros))) = some (.fed .cont) := by decide

/-! ### Witnesses: GETFRAME, reset, invariants -/

theorem witness_GetFrameOnlyInDone : inDone.state = .done ∧ sync4.state ≠ .done := by decide
theorem witness_PowerOnState :
    fedTo (exec (.feed 1201) State.reset) = some (.fed (.rejected .tooLongPulse), State.reset.dec) := by decide
theorem witness_EveryStepKeepsTheInvariant_reset : Inv State.reset := by decide
theorem witness_EveryStepKeepsTheInvariant_data : Inv (at' (dec .confirmOne 4 6 7 kp)) := by decide
theorem witness_EveryStepKeepsTheInvariant_encoder : Inv (enc pk 122 true) := by decide
theorem witness_EveryStepKeepsTheInvariant_step :
    Inv (State.reset.withFetchWord 64 0x200000000000064) ∧
    after (step (State.reset.withFetchWord 64 0x200000000000064)) =
      some { at' (dec .awaitingHead 0 0 0 zeros) with response := .fed .cont } := ⟨by decide, by decide⟩
theorem witness_BufferOverflowIsUnreachable :
    DecoderInv (dec .confirmZero 4 6 7 kp) ∧
    answer (exec (.feed 0) (at' (dec .confirmZero 4 6 7 kp))) = some (.fed .frameReady) := ⟨by decide, by decide⟩
theorem witness_BufferOverflowIsUnreachable_rejected :
    DecoderInv cs3 ∧ answer (exec (.feed 671) (at' cs3)) = some (.fed (.rejected .syncTailOutOfRange)) :=
  ⟨by decide, by decide⟩
/-- The first clause: a head pulse, a tail that inserts a 1, and a rejection. -/
theorem witness_ReceivedBitsStandInTheBuffer_feed :
    DecoderInv (dec .confirmOne 4 0 0 zeros) ∧ HoldsBits (dec .confirmOne 4 0 0 zeros) [] ∧
    answer (exec (.feed 180) (at' (dec .confirmOne 4 0 0 zeros))) = some (.fed .cont) ∧
    receivedAfter [] (dec .confirmOne 4 0 0 zeros) .cont = [true] ∧
    DecoderInv sync4 ∧ HoldsBits sync4 [] ∧
    answer (exec (.feed 1201) (at' sync4)) = some (.fed (.rejected .tooLongPulse)) :=
  ⟨by decide, ⟨rfl, fun _ h => absurd h (Nat.not_lt_zero _)⟩, by decide, rfl, by decide,
    ⟨rfl, fun _ h => absurd h (Nat.not_lt_zero _)⟩, by decide⟩
/-- Four short pairs and one data pair: a decoder that has received the bit 1. -/
theorem witness_ReceivedBitsStandInTheBuffer :
    Received (dec .awaitingHead 4 0 1 ⟨0x80, 0, 0, 0, 0, 0, 0⟩) [true] := by
  have h0 : Received Decoder.atReset [] := .atReset
  have h1 : Received cs0 [] := .byFeed (x := 662) (r := .cont) h0 (by decide)
  have h2 : Received (dec .awaitingHead 1 0 0 zeros) [] := .byFeed (x := 564) (r := .cont) h1 (by decide)
  have h3 : Received (dec .confirmSync 1 0 0 zeros) [] := .byFeed (x := 662) (r := .cont) h2 (by decide)
  have h4 : Received (dec .awaitingHead 2 0 0 zeros) [] := .byFeed (x := 564) (r := .cont) h3 (by decide)
  have h5 : Received (dec .confirmSync 2 0 0 zeros) [] := .byFeed (x := 662) (r := .cont) h4 (by decide)
  have h6 : Received (dec .awaitingHead 3 0 0 zeros) [] := .byFeed (x := 564) (r := .cont) h5 (by decide)
  have h7 : Received cs3 [] := .byFeed (x := 662) (r := .cont) h6 (by decide)
  have h8 : Received (dec .confirmOne 4 0 0 zeros) [] := .byFeed (x := 436) (r := .cont) h7 (by decide)
  exact .byFeed (x := 180) (r := .cont) h8 (by decide)
theorem witness_DataBeforeFourPairsIsRejected :
    State.reset.dec.state = .unknown ∧ State.reset.dec.syncCount ≠ 4 ∧
    (dec .awaitingHead 3 0 0 zeros).state = .awaitingHead ∧ (dec .awaitingHead 3 0 0 zeros).syncCount ≠ 4 ∧
    fedTo (exec (.feed 499) (at' (dec .awaitingHead 3 0 0 zeros))) =
      some (.fed .cont, dec .rejectPending 3 0 0 zeros) := by decide
/-- Both sides: the empty run has an outcome, a FEED in Done has none. -/
theorem witness_RunIsDefinedExactlyWithoutFeedInDone :
    runOps [] State.reset = .next ([], State.reset) ∧ runOps [.feed 100] (at' inDone) = .refused .feedInDone :=
  ⟨rfl, rfl⟩

/-! ### Witnesses: the validator -/

/-- V64 to V68 (and V69, V63): each index, the checksum, and success. -/
theorem witness_ValidateReportsTheFirstFailure :
    [(⟨0xC0, 0x2A, 0x44, 0x32, 0x05, 0x9F, 0x04⟩ : Packet), ⟨0xC0, 0xAA, 0xC4, 0xB2, 0x05, 0x9F, 0x84⟩,
     ⟨0xC0, 0xAA, 0x44, 0x32, 0x05, 0x9F, 0x04⟩, ⟨0xC0, 0xAA, 0x44, 0xB2, 0x85, 0x9F, 0x84⟩,
     ⟨0xC0, 0xAA, 0x44, 0xB2, 0x05, 0x1F, 0x84⟩, ⟨0xC0, 0xAA, 0x44, 0xB2, 0x05, 0x9F, 0x05⟩, pk].map
      (fun p => (Validation.status (validate p), Validation.index (validate p))) =
    [(1, 1), (1, 2), (1, 3), (1, 4), (1, 5), (2, 0), (0, 0)] := by decide
/-- What PARITY and CHECKSUM answer for PK and V69: the premises of the second clause. -/
theorem witness_ValidateReportsTheFirstFailure_premises :
    [pk.b1, pk.b2, pk.b3, pk.b4, pk.b5].map (fun b => answer (exec (.parity b) State.reset)) =
      List.replicate 5 (some (.parity true)) ∧
    answer (exec (.parity 0x32) State.reset) = some (.parity false) ∧
    answer (exec (.checksum pk) State.reset) = some (.checksum true 0x04) ∧
    answer (exec (.checksum { pk with b6 := 0x05 }) State.reset) = some (.checksum false 0x04) := by decide
/-- PK is accepted; the first and last bit of bytes 0, 1, 5 and 6 (V69, V70 and V68 among them). -/
theorem witness_SingleFlippedBitIsCaught :
    validate pk = .ok (extract pk) ∧
    [0, 7, 8, 15, 40, 47, 48, 55].map
      (fun n => Validation.index (validate (Packet.ofBits (pk.toBits ^^^ BitVec.twoPow 56 n)))) =
      [0, 0, 5, 5, 1, 1, 0, 0] := by decide
theorem witness_FreeBitsDetermineTheAcceptedPacket :
    pk.b0 = 0xC0 ∧ low7 pk.b1 = 0x2A ∧ low7 pk.b2 = 0x44 ∧ low7 pk.b3 = 0x32 ∧ low7 pk.b4 = 0x05 ∧ low7 pk.b5 = 0x1F ∧
    validate pk = .ok (extract pk) := by decide

/-! ### Witnesses: the encoder -/

/-- The first and last pair of the preamble and the first and last data bit (V96, V97). -/
theorem witness_EncodeListsTheTransmission :
    (encodePulses pk)[0]? = some 662 ∧ (encodePulses pk)[7]? = some 564 ∧
    pk.toBits.getLsbD 55 = true ∧ (encodePulses pk)[8]? = some 436 ∧ (encodePulses pk)[9]? = some 180 ∧
    pk.toBits.getLsbD 0 = false ∧ (encodePulses pk)[118]? = some 245 ∧ (encodePulses pk)[119]? = some 366 :=
  ⟨rfl, rfl, rfl, rfl, rfl, rfl, rfl, rfl⟩
theorem witness_EncodeDurationAndInjectivity :
    exec (.encode pk) State.reset = exec (.encode pk) State.reset ∧
    (List.range 56).countP (fun n => pk.toBits.getLsbD n) = 21 := ⟨rfl, by decide⟩
theorem witness_EncNextHandsOutTheElement :
    (enc pk 0 true).enc.loaded = true ∧ (enc pk 121 true).enc.idx.val ≤ 121 ∧
    answer (exec .encNext (enc pk 122 true)) = some (.element none) ∧
    answer (exec .encNext (enc pk 0 false)) = some (.element none) := by decide
/-- ENC_NEXT at counts 0 and 1, an ENC_RESTART, and ENC_NEXT at count 0 again (V99). -/
theorem witness_SequencerReplaysTheLoadedPacket :
    (∀ i ∈ [Instr.encNext, .encNext, .encRestart, .encNext], i = .encNext ∨ i = .encRestart) ∧
    nextsSinceRestart [Instr.encNext] = 1 ∧ nextsSinceRestart [Instr.encNext, .encNext, .encRestart] = 0 := by decide
/-- A run with an ENC_NEXT at count 121 and one at count 122. -/
theorem witness_SequencerReplaysTheLoadedPacket_end :
    (∀ i ∈ List.replicate 123 Instr.encNext, i = .encNext ∨ i = .encRestart) ∧
    (List.replicate 123 Instr.encNext)[121]? = some .encNext ∧
    nextsSinceRestart ((List.replicate 123 Instr.encNext).take 121) = 121 ∧
    (List.replicate 123 Instr.encNext)[122]? = some .encNext ∧
    nextsSinceRestart ((List.replicate 123 Instr.encNext).take 122) = 122 := by
  refine ⟨fun _ h => .inl (List.eq_of_mem_replicate h), rfl, ?_, rfl, ?_⟩ <;>
    rw [List.take_replicate, nextsSinceRestart_replicate] <;> rfl

/-! ### Witnesses: encoding -/

theorem witness_DecodeOfEncodeIsTheInstruction :
    (Instr.feed 65535).wellFormed = true ∧ (Instr.assemble 3 8191 127 2047).wellFormed = true ∧
    decode (encode (.feed 65535)) = .feed 65535 := by decide
theorem witness_OpcodeRowsSelectTheInstruction :
    ∀ row ∈ opcodeRows, row.pattern &&& row.mask = row.pattern ∧
      (decode (.command row.pattern)).opcode = row.opcode := by decide
/-- CLASSIFY 436 with every bit it does not name set. -/
theorem witness_UnnamedBitsAreIgnored :
    (0x1000000000001B4 : CommandWord) &&& namedBits .classify = 0x1FFFFFFFFFF01B4 &&& namedBits .classify ∧
    decode (.command 0x1FFFFFFFFFF01B4) = .classify 436 := by decide

/-! ### Witnesses: the whole machine -/

theorem witness_StepRunsTheWordPresented :
    ({ State.reset with input := [.word (.command 0x300000000000000)] } : State).input =
      .word (.command 0x300000000000000) :: [] ∧
    ({ State.reset with input := [.signals quiet] } : State).input = .signals quiet :: [] := by decide
theorem witness_NothingPresentedNothingChanges : State.reset.input = [] := rfl
theorem witness_StatelessOperationsLeaveTheCore :
    ∀ o ∈ [Opcode.classify, .getframe, .parity, .checksum, .extract, .validate, .encode, .assemble, .reserved0,
      .reserved14, .reserved15, .packet],
      ∃ i ∈ [Instr.classify 0, .getframe, .parity 0, .checksum pk, .extract pk, .validate pk, .encode pk,
        .assemble 0 0 0 0, .reserved0, .reserved14, .reserved15, .packet pk], i.opcode = o := by decide
theorem witness_EncoderOperationsLeaveTheDecoder :
    (Instr.encLoad pk).opcode = .encLoad ∧ Instr.encNext.opcode = .encNext ∧
    Instr.encRestart.opcode = .encRestart := by decide
/-- FEED then ENC_NEXT: both answer. -/
theorem witness_DecoderAndEncoderAreIndependent :
    answer (exec (.feed 662) (enc pk 0 true)) = some (.fed .cont) ∧
    answer (exec .encNext (enc pk 0 true)) = some (.element (some ⟨662, .high, false⟩)) := by decide
theorem witness_UnloadedPacketIsNeverSeen :
    State.reset.enc.loaded = false ∧ answer (exec .encNext State.reset) = some (.element none) := by decide

/-! ### Witnesses: the ports -/

theorem witness_DecoderPortsPerformOneOperation :
    ({ quiet with rst := true } : PortIn).rst = true ∧
    ({ quiet with decReset := true } : PortIn).decReset = true ∧
    (portOut (at' sync4)).pulseReady = true ∧
    (cycle { quiet with pulseValid := true, pulseDur := 436 } (at' sync4)).dec = dec .confirmOne 4 0 0 zeros ∧
    (portOut (at' inDone)).pulseReady = false ∧
    (cycle { quiet with pulseValid := true, pulseDur := 436 } (at' inDone)).dec = inDone := by decide
/-- The four results of a FEED on the result ports: R58 and R121 by number. -/
theorem witness_DecoderPortsPerformOneOperation_results :
    [(436, at' sync4), (366, at' (dec .confirmZero 4 6 7 kp)), (1201, at' sync4), (671, at' cs3),
     (0, at' (dec .rejectPending 3 0 0 zeros)), (0, at' (dec .confirmOne 4 24 7 zeros))].map
      (fun q => let o := portOut (cycle { quiet with pulseValid := true, pulseDur := q.1 } q.2)
        (o.resValid, o.resCode, o.resCause)) =
    [(true, 0, 0), (true, 1, 0), (true, 2, 1), (true, 2, 2), (true, 2, 3), (true, 2, 4)] := by decide
/-- ENC_LOAD alone, ENC_RESTART alone, ENC_NEXT alone at the first and the last element, and nothing. -/
theorem witness_EncoderPortsPerformOneOperation :
    (portOut (enc pk 0 true)).encValid = true ∧ (portOut (enc pk 121 true)).encValid = true ∧
    (portOut (enc pk 122 true)).encValid = false ∧ (portOut State.reset).encValid = false ∧
    ({ quiet with encReady := true } : PortIn).encReady = true ∧
    encTransfers { quiet with encLoad := true, encReady := true } (enc zeros 122 true) =
      [.encLoad (Packet.ofBits 0)] ∧
    encTransfers { quiet with encRestart := true } (enc pk 3 true) = [.encRestart] ∧
    encTransfers { quiet with encReady := true } (enc pk 121 true) = [.encNext] ∧
    encTransfers { quiet with encReady := true } State.reset = [] := by decide
/-- Three transfers of one cycle. -/
theorem witness_EncoderPortsPerformOneOperation_several :
    encTransfers { quiet with encLoad := true, encRestart := true, encReady := true, encPktIn := 0xC0AA44B2059F04 }
      (enc zeros 0 true) = [.encLoad pk, .encRestart, .encNext] := by decide
/-- Element 0 on the ports: 662, high, not last. -/
theorem test_ports_element :
    (portOut (enc pk 0 true)).encDur = 662 ∧ (portOut (enc pk 0 true)).encLevel = true ∧
    (portOut (enc pk 0 true)).encLast = false ∧ (portOut (enc pk 121 true)).encLevel = false ∧
    (portOut (enc pk 121 true)).encLast = true := by decide
/-- The seven bytes of the frame in Done; V63, and V69 and V66 for the other two statuses. -/
theorem witness_PortsShowTheDecoderAndTheValidator :
    (∀ i : Fin 7, Packet.byte pk i = Memory.read inDone.buf (Fin.castLE (Nat.le_add_right 7 18) i)) ∧
    [pk, { pk with b6 := 0x05 }, { pk with b3 := 0x32 }].map
      (fun p => let o := portOut (at' (dec .done 4 7 0 p)); (o.valOk, o.valErr, o.valIdx)) =
    [(true, 0, 0), (false, 2, 0), (false, 1, 3)] := by decide

end Sys2Proof.Tests
end

/-! SUPPORT. The kinds of instruction by what they do to the core, and which of its parts each kind can change. -/

namespace Sys2Proof.Machine

/-- Every instruction either only answers, with a response that depends on the decoder at most, or is one of the five
that write the decoder or the encoder (10_state.md R10). -/
theorem exec_kinds (i : Instr) :
    (∃ f : Decoder → Response, ∀ s, exec i s = .next (s.respond (f s.dec))) ∨
    (∃ x, i = .feed x) ∨ i = .reset ∨ (∃ p, i = .encLoad p) ∨ i = .encNext ∨ i = .encRestart := by
  cases i with
  | feed x => exact .inr (.inl ⟨x, rfl⟩)
  | reset => exact .inr (.inr (.inl rfl))
  | encLoad p => exact .inr (.inr (.inr (.inl ⟨p, rfl⟩)))
  | encNext => exact .inr (.inr (.inr (.inr (.inl rfl))))
  | encRestart => exact .inr (.inr (.inr (.inr (.inr rfl))))
  | getframe =>
    exact .inl ⟨fun d => .frame (if frameValid d then some (Memory.frame d.buf) else none), fun _ => rfl⟩
  | classify d => exact .inl ⟨fun _ => .category (classify d), fun _ => rfl⟩
  | parity b => exact .inl ⟨fun _ => .parity (parityGood b), fun _ => rfl⟩
  | checksum p => exact .inl ⟨fun _ => .checksum (checksumGood p) (sum8 p), fun _ => rfl⟩
  | extract p => exact .inl ⟨fun _ => .fields (extract p), fun _ => rfl⟩
  | validate p => exact .inl ⟨fun _ => .validation (validate p), fun _ => rfl⟩
  | encode p => exact .inl ⟨fun _ => .durations (encodePulses p), fun _ => rfl⟩
  | assemble c sid h t => exact .inl ⟨fun _ => .assembled (assemble c sid h t), fun _ => rfl⟩
  | packet p => exact .inl ⟨fun _ => .layout (packetLayout p), fun _ => rfl⟩
  | reserved0 | reserved14 | reserved15 => exact .inl ⟨fun _ => .none, fun _ => rfl⟩

theorem exec_reset (s : State) : exec .reset s = .next ((s.withDec Decoder.atReset).respond .none) := rfl

theorem exec_encLoad (p : Packet) (s : State) :
    exec (.encLoad p) s = .next ((s.withEnc (loadPacket p)).respond .none) := rfl

theorem exec_encNext (s : State) :
    exec .encNext s = .next ((s.withEnc (advance s.enc)).respond (.element (currentElement s.enc))) := rfl

theorem exec_encRestart (s : State) : exec .encRestart s = .next ((s.withEnc (restart s.enc)).respond .none) := rfl

/-- Everything an instruction that answers can do to the core: it feeds, resets or leaves the decoder and does not
touch the encoder, or it loads, advances or restarts the encoder and does not touch the decoder. -/
theorem exec_next_cases {i : Instr} {s t : State} (h : exec i s = .next t) :
    (t.enc = s.enc ∧ (t.dec = s.dec ∨ (∃ x r, feed x s.dec = some (r, t.dec)) ∨ t.dec = Decoder.atReset)) ∨
    (t.dec = s.dec ∧ ((∃ p, t.enc = loadPacket p) ∨ t.enc = advance s.enc ∨ t.enc = restart s.enc)) := by
  obtain ⟨f, hf⟩ | ⟨x, rfl⟩ | rfl | ⟨p, rfl⟩ | rfl | rfl := exec_kinds i
  · cases (hf s).symm.trans h
    exact .inl ⟨rfl, .inl rfl⟩
  · obtain ⟨r, d, hd, rfl⟩ := execFeed_next h
    exact .inl ⟨rfl, .inr (.inl ⟨x, r, hd⟩)⟩
  · cases h
    exact .inl ⟨rfl, .inr (.inr rfl)⟩
  · cases h
    exact .inr ⟨rfl, .inl ⟨p, rfl⟩⟩
  · cases h
    exact .inr ⟨rfl, .inr (.inl rfl)⟩
  · cases h
    exact .inr ⟨rfl, .inr (.inr rfl)⟩

/-- What a step that answers has done: nothing, run a word, or run a cycle of signals (20_memory.md R37). -/
theorem step_next_cases {s t : State} (h : step s = .next t) :
    t = s.respond .none ∨ (∃ w rest, exec (decode w) (s.withInput rest) = .next t) ∨
    ∃ p rest, t = cycle p (s.withInput rest) := by
  unfold step at h
  split at h
  · cases h
    exact .inl rfl
  · exact .inr (.inl ⟨_, _, h⟩)
  · cases h
    exact .inr (.inr ⟨_, _, rfl⟩)

end Sys2Proof.Machine

/-! SUPPORT. The invariant of reachable states (10_state.md R22): what each part of FEED and of the sequencer keeps. -/

namespace Sys2Proof.Safety

open Sys2Proof.Machine

/-! ### The decoder -/

/-- The part of the invariant that does not speak of `state`, for a decoder that is not in `Done`: a byte of the frame
is in progress, bits stand in the buffer only after four sync pairs, and nothing stands above the byte in progress. -/
structure Assembling (d : Decoder) : Prop where
  byteIndex_lt : d.byteIndex.val < 7
  synced : 0 < d.byteIndex.val ∨ 0 < d.bitCount.val → 4 ≤ d.syncCount
  clear : ∀ i : Fin 25, d.byteIndex.val < i.val ∨ 7 ≤ i.val → Memory.read d.buf i = 0
  wf : Memory.wf d.buf = true

theorem DecoderInv.assembling {d : Decoder} (h : DecoderInv d) (hd : d.state ≠ .done) : Assembling d := by
  obtain ⟨⟨hle, hdone⟩, -, -, -, -, hsync, hclear, hwf⟩ := h
  have hne : d.byteIndex.val ≠ 7 := fun e => hd (hdone.mp e)
  exact ⟨by omega, hsync, hclear, hwf⟩

/-- Outside `Done` and `Unknown` the invariant asks in addition only what the confirming states say of the sync
count. -/
theorem Assembling.decoderInv {d : Decoder} (h : Assembling d) (hdone : d.state ≠ .done := by simp)
    (hunknown : d.state ≠ .unknown := by simp)
    (hdata : d.state = .confirmOne ∨ d.state = .confirmZero → d.syncCount = 4 := by simp)
    (hreject : d.state = .rejectPending → d.syncCount ≠ 4 := by simp) : DecoderInv d := by
  have hlt := h.byteIndex_lt
  exact ⟨⟨by omega, by omega, fun e => absurd e hdone⟩, fun e => absurd e hdone, fun e => absurd e hunknown, hdata,
    hreject, h.synced, h.clear, h.wf⟩

theorem decoderInv_atReset : DecoderInv Decoder.atReset := by
  exact ⟨by decide, by decide, fun _ => ⟨rfl, rfl, rfl, Memory.read_nil⟩, by decide, by decide, by decide,
    fun i _ => Memory.read_nil i, rfl⟩

theorem headDispatch_keeps_decoderInv (x : Nat) {d : Decoder} (h : Assembling d) :
    DecoderInv (headDispatch x d).2 := by
  have to_state (st : DecodeState) : Assembling { d with state := st } := ⟨h.1, h.2, h.3, h.4⟩
  obtain ⟨-, e⟩ | ⟨-, -, e⟩ | ⟨-, -, hs, e⟩ | ⟨-, -, hs, e⟩ | ⟨-, -, hs, e⟩ | ⟨-, e⟩ := headDispatch_cases x d <;>
    rw [e]
  · exact decoderInv_atReset
  · exact (to_state .confirmSync).decoderInv
  · exact (to_state .confirmOne).decoderInv (hdata := fun _ => hs)
  · exact (to_state .confirmZero).decoderInv (hdata := fun _ => hs)
  · exact (to_state .rejectPending).decoderInv (hreject := fun _ => hs)
  · exact (to_state .awaitingHead).decoderInv

theorem syncTail_keeps_decoderInv (x : Nat) {d : Decoder} (h : Assembling d) : DecoderInv (syncTail x d).2 := by
  have counted (st : DecodeState) : Assembling { d with state := st, syncCount := d.syncCount + 1 } :=
    ⟨h.1, fun hb => Nat.le_succ_of_le (h.synced hb), h.3, h.4⟩
  rw [syncTail_def]
  split
  · exact decoderInv_atReset
  · split
    · exact headDispatch_keeps_decoderInv x (counted d.state)
    · exact (counted .awaitingHead).decoderInv

/-- An insertion changes the byte in progress only, so the bytes above it stay zero. -/
theorem Assembling.clear_insertBitAt {d : Decoder} (h : Assembling d) (v : Bool) {i : Fin 25}
    (hi : d.byteIndex.val < i.val ∨ 7 ≤ i.val) : Memory.read (Memory.insertBitAt d.buf d.byteIndex v) i = 0 := by
  have hlt := h.byteIndex_lt
  have hne : i ≠ d.byteIndex := fun e => by subst e; omega
  rw [Memory.read_insertBitAt_ne _ v hne]
  exact h.clear i hi

theorem append_keeps_decoderInv (v : Bool) {d : Decoder} (h : Assembling d) (hs : d.syncCount = 4) :
    DecoderInv (append v d).2 := by
  have hlt := h.byteIndex_lt
  have hwf := Memory.wf_insertBitAt d.byteIndex v h.wf
  obtain ⟨hb, e⟩ | ⟨-, hi, e⟩ | ⟨-, hi, hn, e⟩ | ⟨-, -, e⟩ := append_cases v d <;> rw [e]
  · have next : Assembling { d with state := .awaitingHead, bitCount := ⟨d.bitCount.val + 1, hb⟩,
                                    buf := Memory.insertBitAt d.buf d.byteIndex v } :=
      ⟨hlt, fun _ => hs.ge, fun _ hj => h.clear_insertBitAt v hj, hwf⟩
    exact next.decoderInv
  · have clear : ∀ j : Fin 25, 7 ≤ j.val →
        Memory.read (Memory.reverseFrame (Memory.insertBitAt d.buf d.byteIndex v)) j = 0 := fun j hj => by
      rw [Memory.read_reverseFrame j hwf, if_neg (by omega)]
      exact h.clear_insertBitAt v (.inr hj)
    exact ⟨by simp, fun _ => ⟨rfl, hs⟩, by simp, by simp, by simp, fun _ => hs.ge,
      fun j hj => clear j (hj.elim Nat.le_of_lt id), Memory.wf_reverseFrame hwf⟩
  · have next : Assembling { d with state := .awaitingHead, bitCount := 0, byteIndex := ⟨d.byteIndex.val + 1, hn⟩,
                                    buf := Memory.insertBitAt d.buf d.byteIndex v } :=
      ⟨show d.byteIndex.val + 1 < 7 by omega, fun _ => hs.ge,
        fun _ hj => h.clear_insertBitAt v (hj.imp_left Nat.lt_of_succ_lt), hwf⟩
    exact next.decoderInv
  · exact decoderInv_atReset

theorem feed_keeps_decoderInv {x : Nat} {d : Decoder} {q : FeedResult × Decoder} (h : DecoderInv d)
    (hf : feed x d = some q) : DecoderInv q.2 := by
  have hdone : d.state ≠ .done := fun e => by simp [feed_done e] at hf
  have ha := h.assembling hdone
  obtain ⟨-, -, -, hdata, -⟩ := h
  obtain ⟨-, e⟩ | ⟨-, e⟩ | ⟨hst, e⟩ | ⟨hst, e⟩ | ⟨-, e⟩ | ⟨hst, -⟩ := feed_cases x d
  · cases e.symm.trans hf
    exact headDispatch_keeps_decoderInv x ha
  · cases e.symm.trans hf
    exact syncTail_keeps_decoderInv x ha
  · cases e.symm.trans hf
    exact append_keeps_decoderInv true ha (hdata (.inl hst))
  · cases e.symm.trans hf
    exact append_keeps_decoderInv false ha (hdata (.inr hst))
  · cases e.symm.trans hf
    exact decoderInv_atReset
  · exact absurd hst hdone

theorem decCycle_keeps_decoderInv (i : PortIn) {d : Decoder} (h : DecoderInv d) : DecoderInv (decCycle i d).2 := by
  obtain ⟨-, e⟩ | ⟨-, -, r, d', hf, e⟩ | ⟨-, -, e⟩ := decCycle_cases i d <;> rw [e]
  · exact decoderInv_atReset
  · exact feed_keeps_decoderInv h hf
  · exact h

/-! ### The encoder -/

theorem encoderInv_of_idx_zero {e : Encoder} (h : e.idx.val = 0) : EncoderInv e := fun hpos => by omega

theorem advance_keeps_encoderInv {e : Encoder} (h : EncoderInv e) : EncoderInv (advance e) := by
  obtain ⟨_, hl, -, ha⟩ | ⟨-, -, ha⟩ := next_cases e <;> rw [ha]
  · exact fun _ => hl
  · exact h

theorem perform_keeps_encoderInv (i : PortIn) (t : EncTransfer) {e : Encoder} (h : EncoderInv e) :
    EncoderInv (EncTransfer.perform i t e) := by
  cases t with
  | load => exact encoderInv_of_idx_zero rfl
  | restart => exact encoderInv_of_idx_zero rfl
  | next => exact advance_keeps_encoderInv h

theorem encCycle_keeps_encoderInv (n : Nat) (i : PortIn) {e : Encoder} (h : EncoderInv e) :
    EncoderInv (encCycle n i e) :=
  List.foldlRecOn _ _ h fun _ hx t _ => perform_keeps_encoderInv i t hx

/-! ### The machine -/

theorem inv_reset : Inv State.reset := ⟨decoderInv_atReset, encoderInv_of_idx_zero rfl⟩

theorem exec_keeps_inv {i : Instr} {s t : State} (hs : Inv s) (h : exec i s = .next t) : Inv t := by
  obtain ⟨hdec, henc⟩ := hs
  obtain ⟨he, hd⟩ | ⟨hd, he⟩ := exec_next_cases h
  · refine ⟨?_, he ▸ henc⟩
    obtain hd | ⟨x, r, hf⟩ | hd := hd
    · exact hd ▸ hdec
    · exact feed_keeps_decoderInv hdec hf
    · exact hd ▸ decoderInv_atReset
  · refine ⟨hd ▸ hdec, ?_⟩
    obtain ⟨p, he⟩ | he | he := he <;> rw [he]
    · exact encoderInv_of_idx_zero rfl
    · exact advance_keeps_encoderInv henc
    · exact encoderInv_of_idx_zero rfl

theorem cycle_keeps_inv (i : PortIn) {s : State} (hs : Inv s) : Inv (cycle i s) := by
  cases hr : i.rst with
  | true => exact cycle_rst s hr ▸ inv_reset
  | false =>
    rw [Inv, cycle_dec s hr, cycle_enc s hr]
    exact ⟨decCycle_keeps_decoderInv i hs.1, encCycle_keeps_encoderInv s.cycles i hs.2⟩

/-- Settles O21: the instruction, the cycle and the idle step each keep the invariant. -/
theorem everyStepKeepsTheInvariant : Obligations.EveryStepKeepsTheInvariant := by
  intro s t hs h
  obtain rfl | ⟨w, rest, hw⟩ | ⟨p, rest, rfl⟩ := step_next_cases h
  · exact hs
  · exact exec_keeps_inv (s := s.withInput rest) hs hw
  · exact cycle_keeps_inv p (s := s.withInput rest) hs

/-- Settles O20: nothing has been fed to the decoder and nothing handed out. -/
theorem resetMeetsTheInvariant : Obligations.ResetMeetsTheInvariant := inv_reset

end Sys2Proof.Safety

/-! SUPPORT. The frames of the operations (10_state.md R10), and what no operation reads. -/

namespace Sys2Proof.Safety

open Sys2Proof.Machine

/-- With nothing loaded ENC_NEXT hands out nothing and writes nothing (43_encoder.md R109). -/
theorem exec_encNext_of_unloaded {s : State} (h : s.enc.loaded = false) :
    exec .encNext s = .next (s.respond (.element none)) := by
  obtain ⟨_, hl, -⟩ | ⟨-, hc, ha⟩ := next_cases s.enc
  · simp [h] at hl
  · rw [exec_encNext, hc, ha]
    rfl

/-- Settles O53: an instruction outside the five writers of `exec_kinds` only answers. -/
theorem statelessOperationsLeaveTheCore : Obligations.StatelessOperationsLeaveTheCore := by
  intro i s h
  obtain ⟨f, hf⟩ | ⟨x, rfl⟩ | rfl | ⟨p, rfl⟩ | rfl | rfl := exec_kinds i
  · exact ⟨f s.dec, hf s⟩
  all_goals simp [Instr.opcode] at h

/-- Settles O54: each of the three operations writes the encoder and the response. -/
theorem encoderOperationsLeaveTheDecoder : Obligations.EncoderOperationsLeaveTheDecoder := by
  intro i s h
  cases i with
  | encLoad p => exact ⟨_, _, exec_encLoad p s⟩
  | encNext => exact ⟨_, _, exec_encNext s⟩
  | encRestart => exact ⟨_, _, exec_encRestart s⟩
  | _ => simp [Instr.opcode] at h

/-- Settles O57: the response an operation records comes from its operands, the decoder and the encoder. -/
theorem lastResponseIsNeverRead : Obligations.LastResponseIsNeverRead := by
  intro i s r
  obtain ⟨f, hf⟩ | ⟨x, rfl⟩ | rfl | ⟨p, rfl⟩ | rfl | rfl := exec_kinds i
  · rw [hf, hf]
    rfl
  · cases hf : feed x s.dec with
    | none => rw [execFeed_of_none hf, execFeed_of_none (s := { s with response := r }) hf]
    | some q =>
      rw [execFeed_of_some hf, execFeed_of_some (s := { s with response := r }) hf]
      rfl
  all_goals rfl

/-- Settles O56: ENC_NEXT, the one operation that reads the packet, hands out nothing and advances nothing while
nothing is loaded; ENC_LOAD replaces the packet. -/
theorem unloadedPacketIsNeverSeen : Obligations.UnloadedPacketIsNeverSeen := by
  intro i s t q hl h
  obtain ⟨f, hf⟩ | ⟨x, rfl⟩ | rfl | ⟨p, rfl⟩ | rfl | rfl := exec_kinds i
  · cases (hf s).symm.trans h
    exact ⟨_, hf _, rfl, rfl, rfl, rfl, fun hl' => by simp [hl] at hl'⟩
  · obtain ⟨r, d, hd, rfl⟩ := execFeed_next h
    exact ⟨_, execFeed_of_some hd, rfl, rfl, rfl, rfl, fun hl' => by simp [hl] at hl'⟩
  · cases h
    exact ⟨_, exec_reset _, rfl, rfl, rfl, rfl, fun hl' => by simp [hl] at hl'⟩
  · cases h
    exact ⟨_, exec_encLoad p _, rfl, rfl, rfl, rfl, fun _ => rfl⟩
  · cases (exec_encNext_of_unloaded hl).symm.trans h
    exact ⟨_, exec_encNext_of_unloaded hl, rfl, rfl, rfl, rfl, fun hl' => by simp [hl] at hl'⟩
  · cases h
    exact ⟨_, exec_encRestart _, rfl, rfl, rfl, rfl, fun hl' => by simp [restart, hl] at hl'⟩

end Sys2Proof.Safety

/-! SUPPORT. What a FEED does to the sync count, and what of the duration and of the count it tells apart. -/

namespace Sys2Proof.Machine

/-! ### Rejections and the sync count -/

/-- An answer of FEED rejects and leaves the reset state, or does not reject and leaves `n` as the sync count. -/
def RejectsOrLeavesSync (n : Nat) (q : FeedResult × Decoder) : Prop :=
  (∃ c, q = (.rejected c, fullReset)) ∨ (∀ c, q.1 ≠ .rejected c) ∧ q.2.syncCount = n

/-- A head pulse that is not too long only moves to another state (41_decoder.md R74). -/
theorem headDispatch_frame (x : Nat) (d : Decoder) :
    headDispatch x d = (.rejected .tooLongPulse, fullReset) ∨
    ∃ st, headDispatch x d = (.cont, { d with state := st }) := by
  obtain ⟨-, e⟩ | ⟨-, -, e⟩ | ⟨-, -, -, e⟩ | ⟨-, -, -, e⟩ | ⟨-, -, -, e⟩ | ⟨-, e⟩ := headDispatch_cases x d
  · exact .inl e
  all_goals exact .inr ⟨_, e⟩

theorem headDispatch_rejectsOrLeavesSync (x : Nat) (d : Decoder) :
    RejectsOrLeavesSync d.syncCount (headDispatch x d) := by
  obtain e | ⟨st, e⟩ := headDispatch_frame x d <;> rw [e]
  · exact .inl ⟨_, rfl⟩
  · exact .inr ⟨by simp, rfl⟩

theorem syncTail_rejectsOrLeavesSync (x : Nat) (d : Decoder) :
    RejectsOrLeavesSync (d.syncCount + 1) (syncTail x d) := by
  rw [syncTail_def]
  split
  · exact .inl ⟨_, rfl⟩
  · split
    · exact headDispatch_rejectsOrLeavesSync x { d with syncCount := d.syncCount + 1 }
    · exact .inr ⟨by simp, rfl⟩

theorem append_rejectsOrLeavesSync (v : Bool) (d : Decoder) : RejectsOrLeavesSync d.syncCount (append v d) := by
  obtain ⟨_, e⟩ | ⟨-, -, e⟩ | ⟨-, -, _, e⟩ | ⟨-, -, e⟩ := append_cases v d <;> rw [e]
  · exact .inr ⟨by simp, rfl⟩
  · exact .inr ⟨by simp, rfl⟩
  · exact .inr ⟨by simp, rfl⟩
  · exact .inl ⟨_, rfl⟩

/-- A FEED counts the sync count up exactly in ConfirmSync, unless it rejects (10_state.md R13). -/
theorem feed_rejectsOrLeavesSync {x : Nat} {d : Decoder} {q : FeedResult × Decoder} (h : feed x d = some q) :
    RejectsOrLeavesSync (if d.state = .confirmSync then d.syncCount + 1 else d.syncCount) q := by
  obtain ⟨hst, e⟩ | ⟨hst, e⟩ | ⟨hst, e⟩ | ⟨hst, e⟩ | ⟨-, e⟩ | ⟨-, e⟩ := feed_cases x d <;> cases e.symm.trans h
  · rw [if_neg (by obtain hst | hst := hst <;> simp [hst])]
    exact headDispatch_rejectsOrLeavesSync x d
  · rw [if_pos hst]
    exact syncTail_rejectsOrLeavesSync x d
  · rw [if_neg (by simp [hst])]
    exact append_rejectsOrLeavesSync true d
  · rw [if_neg (by simp [hst])]
    exact append_rejectsOrLeavesSync false d
  · exact .inl ⟨_, rfl⟩

/-- A FEED that rejects leaves the decoder's reset state (60_exceptions.md R124). -/
theorem feed_rejected {x : Nat} {d d' : Decoder} {c : Cause} (h : feed x d = some (.rejected c, d')) :
    d' = Decoder.atReset := by
  obtain ⟨c', e⟩ | ⟨hne, -⟩ := feed_rejectsOrLeavesSync h
  · exact congrArg Prod.snd e
  · exact absurd rfl (hne c)

/-! ### Saturated durations -/

/-- All durations above MAX_PULSE act alike: a head of any of them is TooLong, a tail is out of range, and the other
states do not read the duration (92_eei_decisions.md D2). -/
theorem feed_eq_of_tooLong {x y : Nat} (d : Decoder) (hx : 1201 ≤ x) (hy : 1201 ≤ y) : feed x d = feed y d := by
  have head : headDispatch x d = headDispatch y d :=
    (headDispatch_tooLong d hx).trans (headDispatch_tooLong d hy).symm
  have tail : syncTail x d = syncTail y d :=
    (syncTail_long d (by omega)).trans (syncTail_long d (by omega)).symm
  simp only [feed, head, tail]

/-! ### Sync counters that saturate -/

/-- The decoders differ at most in the sync count, and the counts are equal under the cap. -/
def AgreeUnderCap (cap : Nat) (d e : Decoder) : Prop :=
  e = { d with syncCount := e.syncCount } ∧ min cap e.syncCount = min cap d.syncCount

/-- The same result, and decoders that agree under the cap. -/
def AnswersAgree (cap : Nat) (p q : FeedResult × Decoder) : Prop := q.1 = p.1 ∧ AgreeUnderCap cap p.2 q.2

theorem AnswersAgree.refl (cap : Nat) (q : FeedResult × Decoder) : AnswersAgree cap q q := ⟨rfl, rfl, rfl⟩

section
variable {cap n : Nat} {d : Decoder} (h : min cap n = min cap d.syncCount)
include h

/-- The head dispatch asks of the count only whether it is 4, which a cap of 5 or more does not hide. -/
theorem headDispatch_agree (hc : 5 ≤ cap) (x : Nat) :
    AnswersAgree cap (headDispatch x d) (headDispatch x { d with syncCount := n }) := by
  obtain ⟨h1, e⟩ | ⟨h1, h2, e⟩ | ⟨h1, h2, hs, e⟩ | ⟨h1, h2, hs, e⟩ | ⟨h1, h2, hs, e⟩ | ⟨h1, e⟩ :=
    headDispatch_cases x d <;> rw [e]
  · rw [headDispatch_tooLong _ h1]
    exact .refl cap _
  · rw [headDispatch_sync _ h1 h2]
    exact ⟨rfl, rfl, h⟩
  · rw [headDispatch_oneBit h1 h2 (show n = 4 by omega)]
    exact ⟨rfl, rfl, h⟩
  · rw [headDispatch_zeroBit h1 h2 (show n = 4 by omega)]
    exact ⟨rfl, rfl, h⟩
  · rw [headDispatch_premature h1 h2 (show n ≠ 4 by omega)]
    exact ⟨rfl, rfl, h⟩
  · rw [headDispatch_tooShort _ h1]
    exact ⟨rfl, rfl, h⟩

theorem syncTail_agree (hc : 5 ≤ cap) (x : Nat) :
    AnswersAgree cap (syncTail x d) (syncTail x { d with syncCount := n }) := by
  have counted : min cap (n + 1) = min cap (d.syncCount + 1) := by omega
  rw [syncTail_def, syncTail_def]
  split
  · exact .refl cap _
  · split
    · exact headDispatch_agree (d := { d with syncCount := d.syncCount + 1 }) counted hc x
    · exact ⟨rfl, rfl, counted⟩

/-- APPEND does not read the sync count. -/
theorem append_agree (v : Bool) : AnswersAgree cap (append v d) (append v { d with syncCount := n }) := by
  obtain ⟨hb, e⟩ | ⟨hb, hi, e⟩ | ⟨hb, hi, hn, e⟩ | ⟨hb, hi, e⟩ := append_cases v d <;> rw [e]
  · rw [append_within (d := { d with syncCount := n }) hb]
    exact ⟨rfl, rfl, h⟩
  · rw [append_seventh (d := { d with syncCount := n }) hb hi]
    exact ⟨rfl, rfl, h⟩
  · rw [append_byte (d := { d with syncCount := n }) hb hi hn]
    exact ⟨rfl, rfl, h⟩
  · rw [append_overflow (d := { d with syncCount := n }) hb hi]
    exact .refl cap _

/-- FEED answers alike from decoders that agree under a cap of 5 or more. -/
theorem feed_agree (hc : 5 ≤ cap) {x : Nat} {p : FeedResult × Decoder} (hf : feed x d = some p) :
    ∃ q, feed x { d with syncCount := n } = some q ∧ AnswersAgree cap p q := by
  obtain ⟨hst, e⟩ | ⟨hst, e⟩ | ⟨hst, e⟩ | ⟨hst, e⟩ | ⟨hst, e⟩ | ⟨-, e⟩ := feed_cases x d <;> cases e.symm.trans hf
  · exact ⟨_, hst.elim (fun h => feed_unknown h) (fun h => feed_awaitingHead h), headDispatch_agree h hc x⟩
  · exact ⟨_, feed_confirmSync hst, syncTail_agree h hc x⟩
  · exact ⟨_, feed_confirmOne hst, append_agree h true⟩
  · exact ⟨_, feed_confirmZero hst, append_agree h false⟩
  · exact ⟨_, feed_rejectPending hst, .refl cap _⟩

end

end Sys2Proof.Machine

namespace Sys2Proof.Safety

open Sys2Proof.Machine

/-- Settles O14: each answer of a FEED rejects and resets, or leaves the count that its starting state says. -/
theorem syncCountCountsConfirmSyncFeeds : Obligations.SyncCountCountsConfirmSyncFeeds := by
  intro x s t h
  obtain ⟨r, d, hf, rfl⟩ := execFeed_next h
  obtain ⟨c, e⟩ | ⟨hne, hsync⟩ := feed_rejectsOrLeavesSync hf
  · cases e
    exact ⟨fun _ => rfl, fun hc => absurd rfl (hc c)⟩
  · refine ⟨fun ⟨c, hc⟩ => ?_, fun _ => hsync⟩
    cases hc
    exact absurd rfl (hne c)

/-- Settles O15: a duration that the bound cuts is above MAX_PULSE, before and after. -/
theorem saturatedDurationsActAlike : Obligations.SaturatedDurationsActAlike := by
  intro x n s hn
  obtain hx | hx := Nat.le_total x n
  · rw [Nat.min_eq_left hx]
  · rw [Nat.min_eq_right hx]
    simp only [exec, execFeed, feed_eq_of_tooLong s.dec hn (hn.trans hx)]

/-- Settles O16: the capped count agrees with the count under the cap. -/
theorem saturatingSyncCounterIsIndistinguishable : Obligations.SaturatingSyncCounterIsIndistinguishable := by
  intro cap x s t hc h
  obtain ⟨r, d, hf, rfl⟩ := execFeed_next h
  obtain ⟨⟨r', d'⟩, hf', hr, hd, hsync⟩ :=
    feed_agree (n := min cap s.dec.syncCount) (by omega) hc hf
  cases hr
  exact ⟨_, execFeed_of_some hf', rfl, rfl, rfl, hd, hsync⟩

/-- Settles O19: RESET and every rejection leave `fullReset`, which is the power-on decoder. -/
theorem powerOnState : Obligations.PowerOnState := by
  refine ⟨rfl, rfl, rfl, rfl, Memory.read_nil, rfl, rfl, fun s => ⟨_, exec_reset s, rfl, rfl⟩, ?_⟩
  intro x s t c h hr
  obtain ⟨r, d, hf, rfl⟩ := execFeed_next h
  cases hr
  exact ⟨feed_rejected hf, rfl⟩

end Sys2Proof.Safety

/-! SUPPORT. The signal-level binding (10_state.md R23): what the output ports show, and which operations of the
transaction level a clock cycle performs. -/

namespace Sys2Proof.Machine

/-! ### The packet on the ports -/

/-- A packet is its seven bytes. -/
theorem Packet.ext_byte {p q : Packet} (h : ∀ i : Fin 7, Packet.byte p i = Packet.byte q i) : p = q := by
  obtain ⟨p0, p1, p2, p3, p4, p5, p6⟩ := p
  obtain ⟨q0, q1, q2, q3, q4, q5, q6⟩ := q
  simp only [Packet.mk.injEq]
  exact ⟨h 0, h 1, h 2, h 3, h 4, h 5, h 6⟩

/-- Byte `i` of a 56-bit view, byte 0 the most significant (20_memory.md R34). -/
theorem Packet.byte_ofBits (w : PacketWord) (i : Fin 7) :
    Packet.byte (Packet.ofBits w) i = w.extractLsb' (48 - 8 * i.val) 8 := by
  match i with
  | 0 => rfl
  | 1 => rfl
  | 2 => rfl
  | 3 => rfl
  | 4 => rfl
  | 5 => rfl
  | 6 => rfl

/-- Data bit `n` is bit `55 - n` of the 56-bit view (20_memory.md R32, R34). -/
theorem Packet.getLsbD_toBits (p : Packet) (n : Fin 56) : p.toBits.getLsbD (55 - n.val) = dataBit p n := by
  have hn := n.isLt
  rw [← Packet.ofBits_toBits p, dataBit, Packet.byte_ofBits, BitVec.getLsbD_extractLsb', Packet.ofBits_toBits,
    show 48 - 8 * (n.val / 8) + (7 - n.val % 8) = 55 - n.val by omega]
  simp [show 7 - n.val % 8 < 8 by omega]

/-- `frame` shows the bits of buf[0] to buf[6] in order of transmission. -/
theorem frame_port_getLsbD (s : State) {n : Nat} (hn : n < 56) :
    (portOut s).frame.getLsbD (55 - n) = (Memory.read s.dec.buf (Fin.ofNat 25 (n / 8))).getLsbD (7 - n % 8) := by
  have hbyte : Fin.castLE (by decide) (⟨n / 8, by omega⟩ : Fin 7) = Fin.ofNat 25 (n / 8) :=
    Fin.ext (Nat.mod_eq_of_lt (by omega)).symm
  have hbit := Packet.getLsbD_toBits (Memory.frame s.dec.buf) ⟨n, hn⟩
  rwa [dataBit, Memory.frame_byte, hbyte] at hbit

/-! ### The diagnostic and the validator's ports -/

theorem saturated_toNat (n : Nat) : (saturated n).toNat = min n 7 := by
  rw [saturated, BitVec.toNat_ofNat]
  omega

theorem dbgBits_toNat (s : State) : (portOut s).dbgBits.toNat = s.dec.bitCount.val :=
  (BitVec.toNat_ofNat _ _).trans (Nat.mod_eq_of_lt s.dec.bitCount.isLt)

theorem dbgBytes_toNat (s : State) : (portOut s).dbgBytes.toNat = s.dec.byteIndex.val :=
  (BitVec.toNat_ofNat _ _).trans (Nat.mod_eq_of_lt (by omega))

theorem validator_ports {s : State} {v : Validation} (h : validate (Memory.frame s.dec.buf) = v) :
    (portOut s).valOk = decide (v.status = 0) ∧ (portOut s).valErr = v.status ∧ (portOut s).valIdx = v.index := by
  subst h
  exact ⟨rfl, rfl, rfl⟩

/-- The 11 bits of `temp_c10` hold it exactly (42_validator.md R98, R101). -/
theorem tempC10_toInt_ofInt (raw : BitVec 11) : (BitVec.ofInt 11 (tempC10 raw)).toInt = tempC10 raw := by
  have h := raw.isLt
  refine BitVec.toInt_ofInt_eq_self (by decide) ?_ ?_ <;> (simp only [tempC10, Config.tempOffset]; omega)

/-- The 16 bits of `temp_f100` hold it exactly (42_validator.md R99, R101). -/
theorem tempF100_toInt_ofInt (raw : BitVec 11) : (BitVec.ofInt 16 (tempF100 raw)).toInt = tempF100 raw := by
  have h := raw.isLt
  refine BitVec.toInt_ofInt_eq_self (by decide) ?_ ?_ <;> (simp only [tempF100, tempC10, Config.tempOffset]; omega)

/-! ### The result ports -/

/-- The reserved result code is never produced (30_encoding.md R55 (g)). -/
theorem FeedResult.code_ne_reserved (r : FeedResult) : r.code ≠ 3 := by
  cases r with
  | cont => decide
  | frameReady => decide
  | rejected c => exact (by decide : (2 : BitVec 2) ≠ 3)

theorem FeedResult.causeCode_eq_zero {r : FeedResult} (h : r.code ≠ 2) : r.causeCode = 0 := by
  cases r with
  | cont => rfl
  | frameReady => rfl
  | rejected c => exact absurd rfl h

/-- A cycle whose decoder side completes a FEED returns its result. -/
theorem cycle_of_fed {i : PortIn} {s : State} {r : FeedResult} {d : Decoder} (hr : i.rst = false)
    (h : decCycle i s.dec = (some r, d)) : (cycle i s).dec = d ∧ (cycle i s).response = .fed r := by
  simp [cycle, hr, h]

/-- A cycle whose decoder side completes no FEED shows no result. -/
theorem cycle_of_unfed {i : PortIn} {s : State} {d : Decoder} (hr : i.rst = false)
    (h : decCycle i s.dec = (none, d)) : (cycle i s).dec = d ∧ (portOut (cycle i s)).resValid = false := by
  simp [cycle, hr, h, portOut, fedResult]

/-- FEED takes every pulse outside `Done` (41_decoder.md R72). -/
theorem feed_of_ne_done (x : Nat) {d : Decoder} (h : d.state ≠ .done) : ∃ r d', feed x d = some (r, d') := by
  obtain ⟨-, e⟩ | ⟨-, e⟩ | ⟨-, e⟩ | ⟨-, e⟩ | ⟨-, e⟩ | ⟨hd, -⟩ := feed_cases x d
  · exact ⟨_, _, e⟩
  · exact ⟨_, _, e⟩
  · exact ⟨_, _, e⟩
  · exact ⟨_, _, e⟩
  · exact ⟨_, _, e⟩
  · exact absurd hd h

theorem decCycle_reset {i : PortIn} (d : Decoder) (h : i.decReset = true) :
    decCycle i d = (none, Decoder.atReset) := by
  simp [decCycle, h]

theorem decCycle_pulse {i : PortIn} {d d' : Decoder} {r : FeedResult} (h : i.decReset = false)
    (hv : i.pulseValid = true) (hf : feed i.pulseDur.toNat d = some (r, d')) : decCycle i d = (some r, d') := by
  simp [decCycle, h, hv, hf]

theorem decCycle_idle {i : PortIn} {d : Decoder} (h : i.decReset = false)
    (hv : i.pulseValid = false ∨ d.state = .done) : decCycle i d = (none, d) := by
  obtain hv | hv := hv
  · simp [decCycle, h, hv]
  · simp [decCycle, h, feed_done hv]

/-! ### The encoder's ports -/

/-- Every element but the gap fits its port (43_encoder.md R105). -/
theorem elem_lt (p : Packet) (k : Fin 122) (h : k.val ≤ 120 ∨ Config.idleGap < 65536) : elem p k < 65536 := by
  unfold elem
  split
  · split <;> decide
  · split
    · split <;> split <;> decide
    · split
      · decide
      · omega

/-- While an element is at `enc_idx` the ports show it. -/
theorem element_ports {s : State} {x : Element} (h : currentElement s.enc = some x) :
    (portOut s).encDur = durationOnPort x.duration ∧ (portOut s).encLevel = x.level.bit ∧
      (portOut s).encLast = x.last := by
  simp [portOut, h]

theorem PulseLevel.bit_iff (l : PulseLevel) : l.bit = true ↔ l = .high := by
  cases l <;> decide

/-- The transfers that a cycle asks of the encoder, in no particular order. -/
def EncTransfer.asked (i : PortIn) (e : Encoder) : List EncTransfer :=
  (if i.encLoad then [.load] else []) ++ (if i.encRestart then [.restart] else []) ++
  (if i.encReady && encValid e then [.next] else [])

theorem EncTransfer.filter_requested (i : PortIn) (e : Encoder) :
    [EncTransfer.load, .restart, .next].filter (EncTransfer.requested i e) = EncTransfer.asked i e := by
  rw [List.filter_cons, List.filter_cons, List.filter_cons, List.filter_nil]
  simp only [EncTransfer.requested, EncTransfer.asked, Bool.and_comm (encValid e)]
  split <;> split <;> rfl

theorem EncTransfer.ordered_perm : ∀ k, (EncTransfer.ordered k).Perm [.load, .restart, .next] := by decide

/-- A cycle performs each transfer asked for once, in some order (10_state.md R23). -/
theorem encCycle_performs_asked (n : Nat) (i : PortIn) (e : Encoder) :
    ∃ ts : List EncTransfer, ts.Perm (EncTransfer.asked i e) ∧
      encCycle n i e = ts.foldl (fun x t => EncTransfer.perform i t x) e :=
  ⟨_, EncTransfer.filter_requested i e ▸ (EncTransfer.ordered_perm _).filter _, rfl⟩

theorem encCycle_of_asked_one {n : Nat} {i : PortIn} {e : Encoder} {t : EncTransfer}
    (h : EncTransfer.asked i e = [t]) : encCycle n i e = EncTransfer.perform i t e := by
  obtain ⟨ts, hp, he⟩ := encCycle_performs_asked n i e
  rw [h, List.perm_singleton] at hp
  rw [he, hp]
  rfl

theorem encCycle_of_asked_none {n : Nat} {i : PortIn} {e : Encoder} (h : EncTransfer.asked i e = []) :
    encCycle n i e = e := by
  obtain ⟨ts, hp, he⟩ := encCycle_performs_asked n i e
  rw [h, List.perm_nil] at hp
  rw [he, hp]
  rfl

/-- The operation of a transfer. -/
def EncTransfer.operation (i : PortIn) : EncTransfer → Instr
  | .load => .encLoad (Packet.ofBits i.encPktIn)
  | .restart => .encRestart
  | .next => .encNext

/-- A transfer does to the encoder what its operation does. -/
theorem exec_operation (i : PortIn) (t : EncTransfer) (s : State) :
    ∃ u, exec (t.operation i) s = .next u ∧ u.enc = EncTransfer.perform i t s.enc := by
  cases t with
  | load => exact ⟨_, exec_encLoad _ s, rfl⟩
  | restart => exact ⟨_, exec_encRestart s, rfl⟩
  | next => exact ⟨_, exec_encNext s, rfl⟩

end Sys2Proof.Machine

namespace Sys2Proof.Safety

open Sys2Proof.Machine

theorem encTransfers_eq_map_asked (i : PortIn) (s : State) :
    encTransfers i s = (EncTransfer.asked i s.enc).map (EncTransfer.operation i) := by
  simp only [encTransfers, EncTransfer.asked, List.map_append, apply_ite (List.map _)]
  rfl

/-- The operations of a list of transfers, run in order, do to the encoder what the transfers do. -/
theorem runOps_operations (i : PortIn) (ts : List EncTransfer) (s : State) :
    ∃ rs u, runOps (ts.map (EncTransfer.operation i)) s = .next (rs, u) ∧
      u.enc = ts.foldl (fun x t => EncTransfer.perform i t x) s.enc := by
  induction ts generalizing s with
  | nil => exact ⟨[], s, runOps_nil s, rfl⟩
  | cons t ts ih =>
    obtain ⟨v, hv, hve⟩ := exec_operation i t s
    obtain ⟨rs, u, hu, hue⟩ := ih v
    exact ⟨_, u, runOps_cons_next hv hu, by rw [hue, hve]; rfl⟩

/-- Settles O59: in the first four clauses at most one transfer is asked for; in the last the transfers stand in the
order that the cycle performs them in. -/
theorem encoderPortsPerformOneOperation : Obligations.EncoderPortsPerformOneOperation := by
  intro i s hr
  rw [cycle_enc s hr]
  have no_next (h : i.encReady = false ∨ (portOut s).encValid = false) : (i.encReady && encValid s.enc) = false :=
    Bool.and_eq_false_iff.mpr h
  refine ⟨fun hl hs hn => ?_, fun hl hs hn => ?_, fun hl hs hn hv => ?_, fun hl hs hn => ?_, ?_⟩
  · have asked : EncTransfer.asked i s.enc = [.load] := by simp [EncTransfer.asked, hl, hs, no_next hn]
    exact ⟨_, exec_encLoad _ s, encCycle_of_asked_one asked⟩
  · have asked : EncTransfer.asked i s.enc = [.restart] := by simp [EncTransfer.asked, hl, hs, no_next hn]
    exact ⟨_, exec_encRestart s, encCycle_of_asked_one asked⟩
  · have hv : encValid s.enc = true := hv
    have asked : EncTransfer.asked i s.enc = [.next] := by simp [EncTransfer.asked, hl, hs, hn, hv]
    obtain ⟨hi, -, hx, -⟩ | ⟨hnot, -⟩ := next_cases s.enc
    · obtain ⟨hdur, hlevel, hlast⟩ := element_ports hx
      refine ⟨_, _, exec_encNext s, encCycle_of_asked_one asked, congrArg Response.element hx, fun hfits => ?_, ?_, hlast⟩
      · rw [hdur]
        exact durationOnPort_toNat (elem_lt _ _ hfits)
      · rw [hlevel]
        exact PulseLevel.bit_iff _
    · simp only [encValid, Bool.and_eq_true, decide_eq_true_eq] at hv
      obtain ⟨hl', hi⟩ := hv
      exact absurd hnot (by simp [hl']; omega)
  · exact encCycle_of_asked_none (by simp [EncTransfer.asked, hl, hs, no_next hn])
  · obtain ⟨ts, hperm, he⟩ := encCycle_performs_asked s.cycles i s.enc
    obtain ⟨rs, u, hu, hue⟩ := runOps_operations i ts s
    exact ⟨_, rs, u, encTransfers_eq_map_asked i s ▸ hperm.map _, hu, he.trans hue.symm⟩

/-- Settles O58: by the cases of a cycle on the decoder's side, and the codes of the result it shows. -/
theorem decoderPortsPerformOneOperation : Obligations.DecoderPortsPerformOneOperation := by
  intro i s
  refine ⟨cycle_input i s, fun hr => ?_, fun hr hreset => cycle_of_unfed hr (decCycle_reset s.dec hreset),
    fun hr hreset hpulse hready => ?_, fun hr hreset hidle => cycle_of_unfed hr (decCycle_idle hreset ?_),
    ?_, ?_, frameValid_iff s, fun n hn => frame_port_getLsbD s hn⟩
  · rw [cycle_rst s hr]
    exact ⟨rfl, rfl, rfl, rfl⟩
  · obtain ⟨r, d, hf⟩ := feed_of_ne_done i.pulseDur.toNat ((pulseReady_iff s).mp hready)
    obtain ⟨hdec, hresponse⟩ := cycle_of_fed hr (decCycle_pulse hreset hpulse hf)
    obtain ⟨hvalid, hcode, hcause⟩ := result_ports_fed hresponse
    refine ⟨_, r, execFeed_of_some hf, rfl, hdec, hresponse, hvalid, ?_⟩
    rw [hcode, hcause]
    refine ⟨?_, ?_, ?_, ?_, ?_, ?_, ?_⟩
    · rintro rfl
      exact ⟨rfl, rfl⟩
    · rintro rfl
      exact ⟨rfl, rfl⟩
    · rintro c rfl
      rfl
    all_goals
      rintro rfl
      rfl
  · exact hidle.imp_right fun hnot => not_not.mp fun hd => by simp [(pulseReady_iff s).mpr hd] at hnot
  · obtain ⟨r, hcode, -⟩ := result_ports s
    exact hcode ▸ r.code_ne_reserved
  · obtain ⟨r, hcode, hcause⟩ := result_ports s
    rw [hcode, hcause]
    exact FeedResult.causeCode_eq_zero

/-- Settles O60: the validator's ports are wired to the frame of the buffer, which is the given packet. -/
theorem portsShowTheDecoderAndTheValidator : Obligations.PortsShowTheDecoderAndTheValidator := by
  intro s p hp
  obtain rfl : p = Memory.frame s.dec.buf :=
    Packet.ext_byte fun i => (hp i).trans (Memory.frame_byte s.dec.buf i).symm
  refine ⟨?_, saturated_toNat s.dec.syncCount, dbgBits_toNat s, dbgBytes_toNat s, _, _, rfl, rfl, fun x hx => ?_,
    fun j hj => ?_, fun hc => ?_, rfl, rfl, rfl, rfl, tempC10_toInt_ofInt _, tempF100_toInt_ofInt _, rfl⟩
  · show (DecodeState.code s.dec.state).toNat = _
    cases s.dec.state <;> rfl
  · obtain ⟨hok, herr, hidx⟩ := validator_ports hx
    rw [hok, herr, hidx]
    exact ⟨rfl, rfl, rfl⟩
  · obtain ⟨hok, herr, hidx⟩ := validator_ports hj
    rw [hok, herr, hidx]
    exact ⟨rfl, rfl, (BitVec.toNat_ofNat _ _).trans (Nat.mod_eq_of_lt (by omega))⟩
  · obtain ⟨hok, herr, hidx⟩ := validator_ports hc
    rw [hok, herr, hidx]
    exact ⟨rfl, rfl, rfl⟩

end Sys2Proof.Safety

/-! SUPPORT. The received bits in the accumulator (20_memory.md R33): what each part of FEED does to them. -/

namespace Sys2Proof.Safety

open Sys2Proof.Machine

/-! ### Where the bits stand -/

/-- While a frame is assembled, a byte with `k` bits holds them at the positions from `8 - k` on. -/
theorem holdsBits_iff_of_ne_done {d : Decoder} {bits : List Bool} (hst : d.state ≠ .done) :
    HoldsBits d bits ↔ 8 * d.byteIndex.val + d.bitCount.val = bits.length ∧
      ∀ n (h : n < bits.length),
        (Memory.read d.buf (Fin.ofNat 25 (n / 8))).getLsbD (8 - insertedInto d n + n % 8) = bits[n] := by
  simp only [HoldsBits, if_neg hst]

/-- A complete frame holds the bits in natural order. -/
theorem holdsBits_iff_of_done {d : Decoder} {bits : List Bool} (hst : d.state = .done) :
    HoldsBits d bits ↔ 8 * d.byteIndex.val + d.bitCount.val = bits.length ∧
      ∀ n (h : n < bits.length), (Memory.read d.buf (Fin.ofNat 25 (n / 8))).getLsbD (7 - n % 8) = bits[n] := by
  simp only [HoldsBits, if_pos hst]

theorem holdsBits_atReset : HoldsBits Decoder.atReset [] := ⟨rfl, fun _ h => absurd h (Nat.not_lt_zero _)⟩

/-- Moving between the states of an unfinished frame and counting sync pairs does not touch the bits. -/
theorem HoldsBits.move {d : Decoder} {bits : List Bool} (h : HoldsBits d bits) (hst : d.state ≠ .done)
    (st : DecodeState) (n : Nat) (hst' : st ≠ .done := by simp) :
    HoldsBits { d with state := st, syncCount := n } bits :=
  (holdsBits_iff_of_ne_done hst').mpr ((holdsBits_iff_of_ne_done hst).mp h)

/-! ### FEED outside the data tails -/

theorem headDispatch_keeps_holdsBits {x : Nat} {d : Decoder} {bits : List Bool} (h : HoldsBits d bits)
    (hst : d.state ≠ .done) (hr : ∀ c, (headDispatch x d).1 ≠ .rejected c) :
    HoldsBits (headDispatch x d).2 bits := by
  obtain ⟨-, e⟩ | ⟨-, -, e⟩ | ⟨-, -, -, e⟩ | ⟨-, -, -, e⟩ | ⟨-, -, -, e⟩ | ⟨-, e⟩ := headDispatch_cases x d <;>
    rw [e] at hr ⊢
  · exact absurd rfl (hr _)
  · exact h.move hst .confirmSync d.syncCount
  · exact h.move hst .confirmOne d.syncCount
  · exact h.move hst .confirmZero d.syncCount
  · exact h.move hst .rejectPending d.syncCount
  · exact h.move hst .awaitingHead d.syncCount

theorem syncTail_keeps_holdsBits {x : Nat} {d : Decoder} {bits : List Bool} (h : HoldsBits d bits)
    (hst : d.state ≠ .done) (hr : ∀ c, (syncTail x d).1 ≠ .rejected c) : HoldsBits (syncTail x d).2 bits := by
  by_cases hlong : 671 ≤ x
  · rw [syncTail_long d hlong] at hr
    exact absurd rfl (hr _)
  by_cases hinRange : 500 ≤ x
  · rw [syncTail_inRange d hinRange (by omega)]
    exact h.move hst .awaitingHead (d.syncCount + 1)
  · rw [syncTail_short d (by omega)] at hr ⊢
    exact headDispatch_keeps_holdsBits (h.move hst d.state (d.syncCount + 1) hst) hst hr

/-! ### The data tails -/

/-- An insertion shifts the `k` bits of the byte in progress down by one and puts the new one above them, so that byte
holds `k + 1` bits where R33 says; the bytes before it stay as they are (41_decoder.md R79). -/
theorem HoldsBits.getLsbD_insertBitAt {d : Decoder} {bits : List Bool} (h : HoldsBits d bits)
    (hst : d.state ≠ .done) (hwf : Memory.wf d.buf = true) (v : Bool) {n : Nat} (hn : n < (bits ++ [v]).length) :
    (Memory.read (Memory.insertBitAt d.buf d.byteIndex v) (Fin.ofNat 25 (n / 8))).getLsbD
      (8 - (if n / 8 < d.byteIndex.val then 8 else d.bitCount.val + 1) + n % 8) = (bits ++ [v])[n] := by
  obtain ⟨hlen, hbits⟩ := (holdsBits_iff_of_ne_done hst).mp h
  have hcount := d.bitCount.isLt
  have hindex := d.byteIndex.isLt
  have hle : n ≤ bits.length := by simpa [Nat.lt_succ_iff] using hn
  have hval : (Fin.ofNat 25 (n / 8)).val = n / 8 := Nat.mod_eq_of_lt (by omega)
  have inProgress (hi : ¬ n / 8 < d.byteIndex.val) : Fin.ofNat 25 (n / 8) = d.byteIndex := Fin.ext (by omega)
  obtain hold | rfl := hle.lt_or_eq
  · rw [List.getElem_append_left hold, ← hbits n hold, insertedInto]
    by_cases hi : n / 8 < d.byteIndex.val
    · rw [if_pos hi, if_pos hi, Memory.read_insertBitAt_ne _ _ (fun e => by rw [← e, hval] at hi; omega)]
    · rw [if_neg hi, if_neg hi, inProgress hi, Memory.read_insertBitAt_same _ _ hwf, getLsbD_insertBit,
        if_neg (by omega), show 8 - (d.bitCount.val + 1) + n % 8 + 1 = 8 - d.bitCount.val + n % 8 by omega]
  · have hi : ¬ bits.length / 8 < d.byteIndex.val := by omega
    rw [if_neg hi, inProgress hi, Memory.read_insertBitAt_same _ _ hwf, getLsbD_insertBit, if_pos (by omega),
      List.getElem_concat_length rfl]

/-- The eighth insertion completes its byte, so every bit `n` then stands at `n mod 8`. -/
theorem HoldsBits.getLsbD_insertBitAt_eighth {d : Decoder} {bits : List Bool} (h : HoldsBits d bits)
    (hst : d.state ≠ .done) (hwf : Memory.wf d.buf = true) (hb : d.bitCount.val = 7) (v : Bool) {n : Nat}
    (hn : n < (bits ++ [v]).length) :
    (Memory.read (Memory.insertBitAt d.buf d.byteIndex v) (Fin.ofNat 25 (n / 8))).getLsbD (n % 8)
      = (bits ++ [v])[n] := by
  rw [← h.getLsbD_insertBitAt hst hwf v hn, hb, ite_self, Nat.sub_self, Nat.zero_add]

/-- APPEND adds its bit to those the accumulator holds; the seventh byte turns all of them to natural order
(41_decoder.md R79, R80). -/
theorem append_holdsBits (v : Bool) {d : Decoder} {bits : List Bool} (h : HoldsBits d bits) (ha : Assembling d)
    (hst : d.state ≠ .done) : HoldsBits (append v d).2 (bits ++ [v]) := by
  have hlen := ((holdsBits_iff_of_ne_done hst).mp h).1
  have hlen' : (bits ++ [v]).length = bits.length + 1 := List.length_append
  have hlt := ha.byteIndex_lt
  obtain ⟨_, e⟩ | ⟨hb, hi, e⟩ | ⟨hb, -, _, e⟩ | ⟨-, hi, -⟩ := append_cases v d
  · rw [e, holdsBits_iff_of_ne_done (by simp)]
    exact ⟨show 8 * d.byteIndex.val + (d.bitCount.val + 1) = _ by omega,
      fun n hn => h.getLsbD_insertBitAt hst ha.wf v hn⟩
  · rw [e, holdsBits_iff_of_done rfl]
    refine ⟨show 8 * 7 + 0 = _ by omega, fun n hn => ?_⟩
    have hval : (Fin.ofNat 25 (n / 8)).val = n / 8 := Nat.mod_eq_of_lt (by omega)
    rw [Memory.read_reverseFrame _ (Memory.wf_insertBitAt _ v ha.wf), if_pos (by omega),
      getLsbD_bitrev8 _ _ (by omega), Nat.sub_sub_self (by omega)]
    exact h.getLsbD_insertBitAt_eighth hst ha.wf hb v hn
  · rw [e, holdsBits_iff_of_ne_done (by simp)]
    refine ⟨show 8 * (d.byteIndex.val + 1) + 0 = _ by omega, fun n hn => ?_⟩
    rw [insertedInto, if_pos (show n / 8 < d.byteIndex.val + 1 by omega), Nat.sub_self, Nat.zero_add]
    exact h.getLsbD_insertBitAt_eighth hst ha.wf hb v hn
  · omega

/-! ### FEED -/

/-- Only a tail in ConfirmOne or ConfirmZero adds a bit (41_decoder.md R78). -/
theorem receivedAfter_of_not_rejected {d : Decoder} {r : FeedResult} (bits : List Bool)
    (hr : ∀ c, r ≠ .rejected c) :
    (d.state = .confirmOne → receivedAfter bits d r = bits ++ [true]) ∧
    (d.state = .confirmZero → receivedAfter bits d r = bits ++ [false]) ∧
    (d.state ≠ .confirmOne → d.state ≠ .confirmZero → receivedAfter bits d r = bits) := by
  cases r with
  | rejected c => exact absurd rfl (hr c)
  | cont | frameReady => cases hst : d.state <;> simp [receivedAfter, hst]

theorem feed_keeps_holdsBits {x : Nat} {d : Decoder} {q : FeedResult × Decoder} {bits : List Bool}
    (hd : DecoderInv d) (h : HoldsBits d bits) (hf : feed x d = some q) :
    HoldsBits q.2 (receivedAfter bits d q.1) := by
  obtain ⟨c, rfl⟩ | ⟨hr, -⟩ := feed_rejectsOrLeavesSync hf
  · exact holdsBits_atReset
  obtain ⟨received_one, received_zero, received_other⟩ := receivedAfter_of_not_rejected (d := d) bits hr
  obtain ⟨hst, e⟩ | ⟨hst, e⟩ | ⟨hst, e⟩ | ⟨hst, e⟩ | ⟨-, e⟩ | ⟨-, e⟩ := feed_cases x d <;> cases e.symm.trans hf
  · obtain ⟨hdone, hone, hzero⟩ : d.state ≠ .done ∧ d.state ≠ .confirmOne ∧ d.state ≠ .confirmZero := by
      obtain hst | hst := hst <;> simp [hst]
    rw [received_other hone hzero]
    exact headDispatch_keeps_holdsBits h hdone hr
  · rw [received_other (by simp [hst]) (by simp [hst])]
    exact syncTail_keeps_holdsBits h (by simp [hst]) hr
  · have hne : d.state ≠ .done := by simp [hst]
    rw [received_one hst]
    exact append_holdsBits true h (hd.assembling hne) hne
  · have hne : d.state ≠ .done := by simp [hst]
    rw [received_zero hst]
    exact append_holdsBits false h (hd.assembling hne) hne
  · exact absurd rfl (hr _)

/-- Every decoder that FEED and RESET reach meets the invariant and holds the bits it has received. -/
theorem Received.decoderInv_and_holdsBits {d : Decoder} {bits : List Bool} (h : Received d bits) :
    DecoderInv d ∧ HoldsBits d bits := by
  induction h with
  | atReset => exact ⟨decoderInv_atReset, holdsBits_atReset⟩
  | byReset _ _ => exact ⟨decoderInv_atReset, holdsBits_atReset⟩
  | byFeed _ hf ih => exact ⟨feed_keeps_decoderInv ih.1 hf, feed_keeps_holdsBits ih.1 ih.2 hf⟩

/-- Settles O23: what a FEED keeps, the reset state, and the induction over what FEED and RESET reach. -/
theorem receivedBitsStandInTheBuffer : Obligations.ReceivedBitsStandInTheBuffer := by
  refine ⟨fun x s t r bits hd hb h hr => ?_, fun s t h => ?_, holdsBits_atReset,
    fun d bits h => h.decoderInv_and_holdsBits.2⟩
  · obtain ⟨r', d', hf, rfl⟩ := execFeed_next h
    cases hr
    exact feed_keeps_holdsBits hd hb hf
  · cases (exec_reset s).symm.trans h
    exact holdsBits_atReset

end Sys2Proof.Safety

/-! SUPPORT. What an operation of the decoder reads and writes, what one of the encoder does, and that they commute
(20_memory.md R40). -/

namespace Sys2Proof.Safety

open Sys2Proof.Machine

/-- A decoder operation that answers reads the decoder only and writes the decoder and the response, so it does the
same in every state with that decoder. -/
theorem exec_decoderOperation {i : Instr} {s t : State} (hi : i.opcode ∈ [Opcode.feed, .reset, .getframe])
    (h : exec i s = .next t) :
    ∃ d r, ∀ s' : State, s'.dec = s.dec → exec i s' = .next ((s'.withDec d).respond r) := by
  cases i with
  | feed x =>
    obtain ⟨r, d, hf, -⟩ := execFeed_next h
    exact ⟨d, .fed r, fun s' hd => execFeed_of_some (hd ▸ hf)⟩
  | reset => exact ⟨_, _, fun s' _ => exec_reset s'⟩
  | getframe =>
    refine ⟨s.dec, .frame (if frameValid s.dec then some (Memory.frame s.dec.buf) else none), fun s' hd => ?_⟩
    rw [← hd]
    rfl
  | _ => simp [Instr.opcode] at hi

/-- An encoder operation answers in every state, with an encoder and a response that depend on the encoder only. -/
theorem exec_encoderOperation {j : Instr} (hj : j.opcode ∈ [Opcode.encLoad, .encNext, .encRestart]) :
    ∃ (f : Encoder → Encoder) (r : Encoder → Response),
      ∀ s : State, exec j s = .next ((s.withEnc (f s.enc)).respond (r s.enc)) := by
  cases j with
  | encLoad p => exact ⟨fun _ => loadPacket p, fun _ => .none, exec_encLoad p⟩
  | encNext => exact ⟨advance, fun e => .element (currentElement e), exec_encNext⟩
  | encRestart => exact ⟨restart, fun _ => .none, exec_encRestart⟩
  | _ => simp [Instr.opcode] at hj

/-- Settles O55: neither operation reads or writes what the other one does. -/
theorem decoderAndEncoderAreIndependent : Obligations.DecoderAndEncoderAreIndependent := by
  intro i j s t u hi hj hit hju
  obtain ⟨d, r, hdec⟩ := exec_decoderOperation hi hit
  obtain ⟨f, q, henc⟩ := exec_encoderOperation hj
  cases (hdec s rfl).symm.trans hit
  cases (henc _).symm.trans hju
  exact ⟨_, _, henc s, hdec _ rfl, rfl, rfl, rfl, rfl⟩

end Sys2Proof.Safety

/-! SUPPORT. What a step takes from the list of inputs (20_memory.md R37), and the words withFetchWord presents. -/

namespace Sys2Proof.Machine

theorem step_of_word {s : State} {w : TableWord} {rest : List Input} (h : s.input = .word w :: rest) :
    step s = exec (decode w) (s.withInput rest) := by
  simp only [step, h]

theorem step_of_signals {s : State} {i : PortIn} {rest : List Input} (h : s.input = .signals i :: rest) :
    step s = .next (cycle i (s.withInput rest)) := by
  simp only [step, h]

/-- A command word in whole bytes (30_encoding.md R45, R60). -/
theorem tableWord_command (w : CommandWord) : tableWord 64 w.toNat = .ok (.command w) := by
  have hw : w.toNat < 2 ^ 60 := w.isLt
  rw [tableWord, if_neg (by decide), if_pos (by decide), if_pos hw, BitVec.ofNat_toNat, BitVec.setWidth_eq]

theorem tableWord_packet (p : PacketWord) : tableWord 56 p.toNat = .ok (.packet p) := by
  have hp : p.toNat < 2 ^ 56 := p.isLt
  rw [tableWord, if_pos rfl, if_pos hp, BitVec.ofNat_toNat, BitVec.setWidth_eq]

/-- The step after presenting a word of the table runs it in the state before. -/
theorem step_withFetchWord {nbits w : Nat} {t : TableWord} (h : tableWord nbits w = .ok t) (s : State) :
    step (s.withFetchWord nbits w) = exec (decode t) s := by
  have presented : s.withFetchWord nbits w = s.withInput (.word t :: s.input) := by
    simp only [State.withFetchWord, h]
  rw [presented]
  exact step_of_word rfl

end Sys2Proof.Machine

namespace Sys2Proof.Safety

open Sys2Proof.Machine

/-- Settles O48: the two forms of what is presented. -/
theorem stepRunsTheWordPresented : Obligations.StepRunsTheWordPresented :=
  fun _ _ => ⟨fun _ h => step_of_word h, fun _ h => step_of_signals h⟩

/-- Settles O49: a 64-bit command word and a 56-bit packet word are words of the table. -/
theorem presentedWordIsWhatStepRuns : Obligations.PresentedWordIsWhatStepRuns :=
  fun s w p => ⟨step_withFetchWord (tableWord_command w) s, step_withFetchWord (tableWord_packet p) s⟩

end Sys2Proof.Safety

/-! SUPPORT. The operands of a command word (30_encoding.md R60): reading an argument gives back what was written into
it, and writing back what was read keeps the bits that the operation names. -/

namespace Sys2Proof

open Sys2Proof.Machine (toNat_append)

theorem durationOf_lt (a : BitVec 56) : durationOf a < 2 ^ Config.durW := (a.extractLsb' 0 16).isLt

theorem durationOf_durationArg {d : Nat} (h : d < 2 ^ Config.durW) : durationOf (durationArg d) = d := by
  rw [durationOf, durationArg, BitVec.extractLsb'_append_eq_right, BitVec.toNat_ofNat, Nat.mod_eq_of_lt h]

theorem parityArg_operand (b : Byte) : (0#48 ++ b).extractLsb' 0 8 = b := BitVec.extractLsb'_append_eq_right

/-- The argument of ASSEMBLE as one number. -/
theorem assembleArg_toNat (c : BitVec 2) (s : BitVec 13) (h : BitVec 7) (t : BitVec 11) :
    (assembleArg c s h t).toNat = c.toNat * 2 ^ 31 + s.toNat * 2 ^ 18 + h.toNat * 2 ^ 11 + t.toNat := by
  show (0#23 ++ c ++ s ++ h ++ t).toNat = _
  simp only [toNat_append, BitVec.toNat_ofNat]
  omega

theorem assembleArg_operands (c : BitVec 2) (s : BitVec 13) (h : BitVec 7) (t : BitVec 11) :
    (assembleArg c s h t).extractLsb' 31 2 = c ∧ (assembleArg c s h t).extractLsb' 18 13 = s ∧
    (assembleArg c s h t).extractLsb' 11 7 = h ∧ (assembleArg c s h t).extractLsb' 0 11 = t := by
  have hs := s.isLt
  have hh := h.isLt
  have ht := t.isLt
  have hc := c.isLt
  refine ⟨?_, ?_, ?_, ?_⟩ <;>
    (apply BitVec.eq_of_toNat_eq
     rw [BitVec.extractLsb'_toNat, assembleArg_toNat, Nat.shiftRight_eq_div_pow]
     omega)

/-- Bits under a mask of the low `n` of them. -/
theorem toNat_and_lowBits {m n : Nat} (a : BitVec (m + n)) :
    (a &&& BitVec.ofNat (m + n) (2 ^ n - 1)).toNat = a.toNat % 2 ^ n := by
  have fits : 2 ^ n - 1 < 2 ^ (m + n) :=
    Nat.lt_of_lt_of_le (Nat.sub_one_lt (Nat.two_pow_pos n).ne') (Nat.pow_le_pow_right (by decide) (Nat.le_add_left n m))
  rw [BitVec.toNat_and, BitVec.toNat_ofNat, Nat.mod_eq_of_lt fits, Nat.and_two_pow_sub_one_eq_mod]

/-- An operand in the low bits, written back with zeros above it. -/
theorem zeros_append_low {m n : Nat} (a : BitVec (m + n)) :
    0#m ++ a.extractLsb' 0 n = a &&& BitVec.ofNat (m + n) (2 ^ n - 1) := by
  apply BitVec.eq_of_toNat_eq
  rw [toNat_and_lowBits, toNat_append, BitVec.extractLsb'_toNat]
  simp

theorem durationArg_durationOf (a : BitVec 56) : durationArg (durationOf a) = a &&& 0xFFFF := by
  rw [durationArg, durationOf, BitVec.ofNat_toNat, BitVec.setWidth_eq]
  exact zeros_append_low (m := 40) (n := 16) a

theorem parityArg_of_operand (a : BitVec 56) : 0#48 ++ a.extractLsb' 0 8 = a &&& 0xFF :=
  zeros_append_low (m := 48) (n := 8) a

theorem assembleArg_of_operands (a : BitVec 56) :
    assembleArg (a.extractLsb' 31 2) (a.extractLsb' 18 13) (a.extractLsb' 11 7) (a.extractLsb' 0 11) =
      a &&& 0x1FFFFFFFF := by
  apply BitVec.eq_of_toNat_eq
  rw [assembleArg_toNat, show (0x1FFFFFFFF : BitVec 56) = BitVec.ofNat (23 + 33) (2 ^ 33 - 1) from rfl,
    toNat_and_lowBits (m := 23) (n := 33)]
  simp only [BitVec.extractLsb'_toNat, Nat.shiftRight_eq_div_pow]
  omega

end Sys2Proof

/-! SUPPORT. Decoding and encoding of command words (30_encoding.md R60) undo each other, up to the bits that the
operation does not name. -/

namespace Sys2Proof

/-- The round trip of a well-formed instruction, one argument layout at a time. -/
theorem decode_encode {i : Instr} (h : i.wellFormed = true) : decode (encode i) = i := by
  cases i with
  | classify d | feed d =>
    simp [encode, command, decode, decodeCommand, op_append, arg_append, durationOf_durationArg (of_decide_eq_true h)]
  | parity b => simp [encode, command, decode, decodeCommand, op_append, arg_append, parityArg_operand]
  | checksum p | extract p | validate p | encode p | encLoad p =>
    simp [encode, command, decode, decodeCommand, op_append, arg_append, Packet.ofBits_toBits]
  | assemble c s h t =>
    simp [encode, command, decode, decodeCommand, op_append, arg_append, assembleArg_operands]
  | reset | getframe | encNext | encRestart | reserved0 | reserved14 | reserved15 => rfl
  | packet p => exact congrArg _ (Packet.ofBits_toBits p)

theorem decode_wellFormed (w : TableWord) : (decode w).wellFormed = true := by
  cases w with
  | packet w => rfl
  | command w =>
    simp only [decode, decodeCommand]
    split
    case h_1 | h_2 => exact decide_eq_true (durationOf_lt _)
    all_goals rfl

/-- The operation depends on the code only. -/
theorem opcode_decodeCommand_congr {w v : CommandWord} (h : CommandWord.op w = CommandWord.op v) :
    (decodeCommand w).opcode = (decodeCommand v).opcode := by
  simp only [decodeCommand, h]
  split <;> rfl

/-- A command word with every bit of its argument zero stands for its code. -/
theorem opcode_decodeCommand (w : CommandWord) :
    (decodeCommand w).opcode = (decodeCommand (CommandWord.op w ++ 0#56)).opcode :=
  opcode_decodeCommand_congr (op_append _ _).symm

/-- A command word under a mask that names its code. -/
theorem command_eq_and {w : CommandWord} {c : BitVec 4} {a m : BitVec 56} (hc : (CommandWord.op w).toNat = c.toNat)
    (ha : a = CommandWord.arg w &&& m) : command c a = .command (w &&& (15#4 ++ m : BitVec (4 + 56))) := by
  rw [← append_op_arg w, BitVec.and_append, show CommandWord.op w &&& 15#4 = _ from BitVec.and_allOnes, ← ha,
    BitVec.eq_of_toNat_eq hc]
  rfl

/-- The other half of the round trip: what is lost of a command word are the bits that its operation does not name.
The case `h_k` is the operation code `k`, and the last case is code 0. -/
theorem encode_decodeCommand (w : CommandWord) :
    encode (decodeCommand w) = .command (w &&& namedBits (decodeCommand w).opcode) := by
  generalize hi : decodeCommand w = i
  simp only [decodeCommand] at hi
  split at hi <;> subst hi
  case h_1 hc | h_2 hc => exact command_eq_and hc (durationArg_durationOf _)
  case h_5 hc => exact command_eq_and hc (parityArg_of_operand _)
  case h_6 hc | h_7 hc | h_8 hc | h_9 hc | h_10 hc =>
    exact command_eq_and (m := BitVec.allOnes 56) hc (by rw [Packet.toBits_ofBits, BitVec.and_allOnes])
  case h_13 hc => exact command_eq_and hc (assembleArg_of_operands _)
  case h_3 hc | h_4 hc | h_11 hc | h_12 hc | h_14 hc | h_15 hc =>
    exact command_eq_and (m := 0) hc BitVec.and_zero.symm
  case h_16 =>
    have otherCode : (CommandWord.op w).toNat = 0 := by
      have := (CommandWord.op w).isLt
      simp only [imp_false] at *
      omega
    exact command_eq_and (m := 0) otherCode BitVec.and_zero.symm

end Sys2Proof

/-! SUPPORT. The rows of the opcode table and the bits that an operation names, through the code alone. -/

namespace Sys2Proof

theorem opcodeRows_mask : ∀ row ∈ opcodeRows, row.mask = (15#4 ++ 0#56 : BitVec (4 + 56)) := by decide

/-- A row's pattern is one operation code, the one that decodes to the row. -/
theorem opcodeRows_pattern : ∀ row ∈ opcodeRows, ∀ c : BitVec 4,
    (c ++ 0#56 : BitVec (4 + 56)) = row.pattern ↔ (decodeCommand (c ++ 0#56)).opcode = row.opcode := by decide

/-- Every operation names its whole code. -/
theorem op_namedBits (w : CommandWord) : CommandWord.op (namedBits (decodeCommand w).opcode) = 15#4 := by
  rw [opcode_decodeCommand w]
  generalize CommandWord.op w = c
  revert c
  decide

theorem op_and (w m : CommandWord) : CommandWord.op (w &&& m) = CommandWord.op w &&& CommandWord.op m :=
  BitVec.extractLsb'_and

theorem op_and_namedBits (w v : CommandWord) :
    CommandWord.op (v &&& namedBits (decodeCommand w).opcode) = CommandWord.op v := by
  rw [op_and, op_namedBits]
  exact BitVec.and_allOnes

/-- Words that agree on the bits that the first one's operation names have one operation. -/
theorem opcode_eq_of_and_namedBits {w v : CommandWord}
    (h : w &&& namedBits (decodeCommand w).opcode = v &&& namedBits (decodeCommand w).opcode) :
    (decodeCommand v).opcode = (decodeCommand w).opcode :=
  opcode_decodeCommand_congr (by rw [← op_and_namedBits w v, ← h, op_and_namedBits])

/-- The bits that its operation names are all that decoding reads of a command word. -/
theorem decode_namedBits (w : CommandWord) :
    decode (.command (w &&& namedBits (decodeCommand w).opcode)) = decodeCommand w := by
  rw [← encode_decodeCommand]
  exact decode_encode (decode_wellFormed (.command w))

end Sys2Proof

/-! SUPPORT. The bytes of a packet by the bits of the pattern (30_encoding.md R51). -/

namespace Sys2Proof.Machine

theorem parityBit_toNat (b : Byte) : (b.getLsbD 7).toNat = b.toNat / 128 := by
  have := b.isLt
  rw [← BitVec.testBit_toNat, Nat.toNat_testBit]
  omega

theorem unusedBits_toNat (b : Byte) : (b.extractLsb' 4 3).toNat = b.toNat / 16 % 8 := by
  rw [BitVec.extractLsb'_toNat, Nat.shiftRight_eq_div_pow]

theorem exec_packet (p : Packet) (s : State) : exec (.packet p) s = .next (s.respond (.layout (packetLayout p))) := rfl

end Sys2Proof.Machine

namespace Sys2Proof.Safety

open Sys2Proof.Machine Sys2Proof.Laws

/-- Settles O43, by the layouts of the operands. -/
theorem decodeOfEncodeIsTheInstruction : Obligations.DecodeOfEncodeIsTheInstruction := fun _ => decode_encode

/-- Settles O44: only a duration can be ill formed, and the decoder reads 16 bits of it. -/
theorem decodedInstructionsAreWellFormed : Obligations.DecodedInstructionsAreWellFormed := decode_wellFormed

/-- Settles O45: a row's mask keeps the code of a word, and the code decides the operation. -/
theorem opcodeRowsSelectTheInstruction : Obligations.OpcodeRowsSelectTheInstruction := by
  intro w row hrow
  have hcode : w &&& row.mask = (CommandWord.op w ++ 0#56 : BitVec (4 + 56)) := by
    rw [opcodeRows_mask row hrow]
    conv_lhs => rw [← append_op_arg w]
    exact EncodesOpcode.mask_append _ _
  rw [hcode, decode, opcode_decodeCommand]
  exact opcodeRows_pattern row hrow _

/-- Settles O46: the two words have one operation, so decoding reads the same bits of both. -/
theorem unnamedBitsAreIgnored : Obligations.UnnamedBitsAreIgnored := by
  intro w v h
  have hop := opcode_eq_of_and_namedBits h
  calc decodeCommand v = decode (.command (v &&& namedBits (decodeCommand v).opcode)) := (decode_namedBits v).symm
    _ = decode (.command (v &&& namedBits (decodeCommand w).opcode)) := by rw [hop]
    _ = decode (.command (w &&& namedBits (decodeCommand w).opcode)) := congrArg (decode ∘ TableWord.command) h.symm
    _ = decodeCommand w := decode_namedBits w

/-- Settles O52: each byte is the sum of its fields, each at the weight of its lowest bit. -/
theorem packetWordShowsThePattern : Obligations.PacketWordShowsThePattern := by
  intro p s
  refine ⟨packetLayout p, exec_packet p s, ?_⟩
  simp only [packetLayout, channelOf_toNat, sensorIdOf_toNat, humidityOf, temperatureRawOf_toNat, low7_toNat,
    parityBit_toNat, unusedBits_toNat, and_true]
  refine ⟨?_, ?_, ?_, ?_, ?_, ?_⟩ <;> omega

/-- Settles O47: the eight words evaluate. -/
theorem sampleWordsDecode : Obligations.SampleWordsDecode := by
  unfold Obligations.SampleWordsDecode
  decide

/-- Settles O51: the three codes have one meaning, to answer with no result. -/
theorem reservedCodesPerformNoOperation : Obligations.ReservedCodesPerformNoOperation := fun _ => ⟨rfl, rfl, rfl⟩

end Sys2Proof.Safety

/-! SUPPORT. The answer of CLASSIFY, and the code of the category by the thresholds that the duration reaches
(40_classifier.md R65, R66). -/

namespace Sys2Proof.Machine

/-- CLASSIFY answers with the category of its duration, however that is known, and writes nothing else. -/
theorem exec_classify {d : Nat} {c : Category} (h : classify d = c) (s : State) :
    exec (.classify d) s = .next { s with response := .category c } := by
  subst h
  rfl

/-- The categories are coded in the order of their intervals: the code counts the lower bounds that are reached. -/
theorem code_classify_toNat (d : Nat) :
    (classify d).code.toNat = [190, 380, 500, 1201].countP (fun bound => decide (bound ≤ d)) := by
  simp only [List.countP_cons, List.countP_nil, decide_eq_true_eq]
  obtain ⟨h, e⟩ | ⟨h, h', e⟩ | ⟨h, h', e⟩ | ⟨h, h', e⟩ | ⟨h, e⟩ := classify_cases d <;>
    simp only [e, Category.code] <;> grind

/-- A longer duration reaches every lower bound that a shorter one reaches. -/
theorem code_classify_mono {d1 d2 : Nat} (h : d1 ≤ d2) :
    (classify d1).code.toNat ≤ (classify d2).code.toNat := by
  rw [code_classify_toNat, code_classify_toNat]
  refine List.countP_mono_left fun bound _ hd => ?_
  exact decide_eq_true ((of_decide_eq_true hd).trans h)

end Sys2Proof.Machine

namespace Sys2Proof.Safety

open Sys2Proof.Machine

/-- Settles O2: the answers are the categories of the durations, and the code counts the thresholds reached. -/
theorem classifyIsMonotoneAndStateless : Obligations.ClassifyIsMonotoneAndStateless := by
  intro d1 d2 s1 s2 h
  exact ⟨classify d1, classify d2, exec_classify rfl s1, exec_classify rfl s2, code_classify_mono h, congrArg classify⟩

/-- Settles O1: on each interval the category is the one that the interval's lemma says. -/
theorem classifyGivesTheIntervalsCategory : Obligations.ClassifyGivesTheIntervalsCategory := by
  intro d s
  exact ⟨fun h => exec_classify (classify_tooLong h) s, fun h1 h2 => exec_classify (classify_sync h1 h2) s,
    fun h1 h2 => exec_classify (classify_oneBit h1 h2) s, fun h1 h2 => exec_classify (classify_zeroBit h1 h2) s,
    fun h => exec_classify (classify_tooShort h) s⟩

end Sys2Proof.Safety

/-! SUPPORT. FEED by the state it starts in, as an instruction: what each state does with a pulse, and which other FEED
has the same outcome (41_decoder.md R72 to R83). -/

namespace Sys2Proof.Machine

/-! ### Heads -/

/-- FEED in Unknown and in AwaitingHead is the head dispatch (41_decoder.md R73, R74). -/
theorem exec_feed_of_headDispatch {x : Nat} {s : State} {r : FeedResult} {d : Decoder}
    (hst : s.dec.state = .awaitingHead ∨ s.dec.state = .unknown) (h : headDispatch x s.dec = (r, d)) :
    exec (.feed x) s = .next { s with dec := d, response := .fed r } := by
  obtain hst | hst := hst
  · exact execFeed_of_some ((feed_awaitingHead hst).trans (congrArg some h))
  · exact execFeed_of_some ((feed_unknown hst).trans (congrArg some h))

/-- FEED reads nothing of the core but the decoder, and of the decoder only what its answer shows. -/
theorem exec_feed_congr {x : Nat} {s : State} {d : Decoder} (h : feed x s.dec = feed x d) :
    exec (.feed x) s = exec (.feed x) { s with dec := d } := by
  cases hf : feed x d with
  | none => rw [execFeed_of_none (h.trans hf), execFeed_of_none (s := { s with dec := d }) hf]
  | some q =>
    rw [execFeed_of_some (h.trans hf), execFeed_of_some (s := { s with dec := d }) hf]
    rfl

theorem feed_unknown_eq_awaitingHead (x : Nat) {d : Decoder} (hst : d.state = .unknown) :
    feed x d = feed x { d with state := .awaitingHead } := by
  rw [feed_unknown hst, feed_awaitingHead rfl]
  rfl

/-- Moving to the state a decoder is in changes nothing. -/
theorem Decoder.withState_self {d : Decoder} {st : DecodeState} (h : d.state = st) : { d with state := st } = d := by
  subst h
  rfl

/-! ### Sync tails -/

/-- A sync tail below SYNC_MIN is fed as a head with the pair counted (41_decoder.md R77). -/
theorem feed_shortTail {x : Nat} {d : Decoder} (hst : d.state = .confirmSync) (hx : x ≤ 499) :
    feed x d = feed x { d with state := .awaitingHead, syncCount := d.syncCount + 1 } := by
  rw [feed_confirmSync hst, syncTail_short d hx, feed_awaitingHead rfl]
  rfl

/-- FEED in ConfirmSync is the sync tail (41_decoder.md R75 to R77). -/
theorem exec_feed_of_syncTail {x : Nat} {s : State} {r : FeedResult} {d : Decoder}
    (hst : s.dec.state = .confirmSync) (h : syncTail x s.dec = (r, d)) :
    exec (.feed x) s = .next { s with dec := d, response := .fed r } :=
  execFeed_of_some ((feed_confirmSync hst).trans (congrArg some h))

/-! ### Data tails -/

/-- The state in which the tail of a pair inserts bit `b` (41_decoder.md R78). -/
def confirming (b : Bool) : DecodeState := if b then .confirmOne else .confirmZero

theorem confirming_of_data {st : DecodeState} {v : Bool}
    (h : st = .confirmOne ∧ v = true ∨ st = .confirmZero ∧ v = false) : st = confirming v := by
  obtain ⟨rfl, rfl⟩ | ⟨rfl, rfl⟩ := h <;> rfl

theorem feed_confirming (x : Nat) {b : Bool} {d : Decoder} (h : d.state = confirming b) :
    feed x d = some (append b d) := by
  cases b with
  | true => exact feed_confirmOne h
  | false => exact feed_confirmZero h

/-- FEED in ConfirmOne and ConfirmZero is APPEND (41_decoder.md R78). -/
theorem exec_feed_of_append (x : Nat) {s : State} {v : Bool} {r : FeedResult} {d : Decoder}
    (hst : s.dec.state = confirming v) (h : append v s.dec = (r, d)) :
    exec (.feed x) s = .next { s with dec := d, response := .fed r } :=
  execFeed_of_some ((feed_confirming x hst).trans (congrArg some h))

/-- An insertion that completes no frame moves on by one bit (41_decoder.md R79). -/
theorem append_incomplete (v : Bool) {d : Decoder} (h : d.bitCount.val < 7 ∨ d.byteIndex.val < 6) :
    ∃ bc bi,
      append v d = (.cont, { d with state := .awaitingHead, bitCount := bc, byteIndex := bi,
                                    buf := Memory.insertBitAt d.buf d.byteIndex v }) ∧
      (d.bitCount.val < 7 → bc.val = d.bitCount.val + 1 ∧ bi = d.byteIndex) ∧
      (d.bitCount.val = 7 → bc.val = 0 ∧ bi.val = d.byteIndex.val + 1) := by
  obtain ⟨hb, e⟩ | ⟨hb, hi, -⟩ | ⟨hb, -, hn, e⟩ | ⟨hb, hi, -⟩ := append_cases v d
  · exact ⟨_, _, e, fun _ => ⟨rfl, rfl⟩, fun h7 => by omega⟩
  · omega
  · exact ⟨_, _, e, fun h7 => by omega, fun _ => ⟨rfl, rfl⟩⟩
  · omega

/-! ### The completed frame -/

section
variable {m : Memory} (h : Memory.wf m = true) (v : Bool)
include h

theorem Memory.read_completed_below {i : Fin 25} (hi : i.val < 6) :
    Memory.read (Memory.reverseFrame (Memory.insertBitAt m 6 v)) i = bitrev8 (Memory.read m i) := by
  rw [Memory.read_reverseFrame i (Memory.wf_insertBitAt 6 v h), if_pos (by omega),
    Memory.read_insertBitAt_ne m v (Fin.ne_of_val_ne (Nat.ne_of_lt hi))]

theorem Memory.read_completed_last :
    Memory.read (Memory.reverseFrame (Memory.insertBitAt m 6 v)) 6 = bitrev8 (insertBit (Memory.read m 6) v) := by
  rw [Memory.read_reverseFrame 6 (Memory.wf_insertBitAt 6 v h), if_pos (by decide), Memory.read_insertBitAt_same 6 v h]

theorem Memory.read_completed_above {i : Fin 25} (hi : 7 ≤ i.val) :
    Memory.read (Memory.reverseFrame (Memory.insertBitAt m 6 v)) i = Memory.read m i := by
  rw [Memory.read_reverseFrame i (Memory.wf_insertBitAt 6 v h), if_neg (by omega),
    Memory.read_insertBitAt_ne m v (Fin.ne_of_val_ne (Nat.ne_of_gt (show 6 < i.val from hi)))]

end

/-! ### Rejections -/

/-- APPEND rejects only at the end of the last byte of the storage (41_decoder.md R81). -/
theorem append_rejected {v : Bool} {d d' : Decoder} {c : Cause} (h : append v d = (.rejected c, d')) :
    d.byteIndex.val = 24 ∧ d.bitCount.val = 7 := by
  obtain ⟨_, e⟩ | ⟨-, -, e⟩ | ⟨-, -, _, e⟩ | ⟨hb, hi, -⟩ := append_cases v d
  · cases e.symm.trans h
  · cases e.symm.trans h
  · cases e.symm.trans h
  · exact ⟨hi, hb⟩

theorem headDispatch_rejected {x : Nat} {d d' : Decoder} {c : Cause} (h : headDispatch x d = (.rejected c, d')) :
    c = .tooLongPulse := by
  obtain e | ⟨st, e⟩ := headDispatch_frame x d <;> cases e.symm.trans h
  rfl

theorem syncTail_rejected {x : Nat} {d d' : Decoder} {c : Cause} (h : syncTail x d = (.rejected c, d')) :
    c = .syncTailOutOfRange ∨ c = .tooLongPulse := by
  rw [syncTail_def] at h
  split at h
  · cases h
    exact .inl rfl
  · split at h
    · exact .inr (headDispatch_rejected h)
    · cases h

/-- Only a data tail at the end of the storage answers BufferOverflow (41_decoder.md R81). -/
theorem feed_bufferOverflow {x : Nat} {d d' : Decoder} (h : feed x d = some (.rejected .bufferOverflow, d')) :
    d.byteIndex.val = 24 ∧ d.bitCount.val = 7 := by
  obtain ⟨-, e⟩ | ⟨-, e⟩ | ⟨-, e⟩ | ⟨-, e⟩ | ⟨-, e⟩ | ⟨-, e⟩ := feed_cases x d
  · exact absurd (headDispatch_rejected (Option.some.inj (e.symm.trans h))) (by decide)
  · exact absurd (syncTail_rejected (Option.some.inj (e.symm.trans h))) (by decide)
  · exact append_rejected (Option.some.inj (e.symm.trans h))
  · exact append_rejected (Option.some.inj (e.symm.trans h))
  · cases e.symm.trans h
  · cases e.symm.trans h

/-! ### GETFRAME -/

theorem exec_getframe_of_done {s : State} (h : s.dec.state = .done) :
    exec .getframe s = .next { s with response := .frame (some (Memory.frame s.dec.buf)) } := by
  simp [exec, execGetframe, frameValid, h, State.respond]

theorem exec_getframe_of_ne_done {s : State} (h : s.dec.state ≠ .done) :
    exec .getframe s = .next { s with response := .frame none } := by
  simp [exec, execGetframe, frameValid, h, State.respond]

end Sys2Proof.Machine

namespace Sys2Proof.Safety

open Sys2Proof.Machine

/-! ### FEED, state by state -/

/-- Settles O3: each interval and count is a case of the head dispatch. -/
theorem headPulseDispatch : Obligations.HeadPulseDispatch := by
  intro d s hst
  refine ⟨fun h => ?_, fun h1 h2 => ?_, fun h1 h2 h4 => ?_, fun h1 h2 h4 => ?_, fun h1 h2 h4 => ?_, fun h => ?_⟩
  · exact exec_feed_of_headDispatch (.inl hst) (headDispatch_tooLong s.dec h)
  · exact exec_feed_of_headDispatch (.inl hst) (headDispatch_sync s.dec h1 h2)
  · exact exec_feed_of_headDispatch (.inl hst) (headDispatch_oneBit h1 h2 h4)
  · exact exec_feed_of_headDispatch (.inl hst) (headDispatch_zeroBit h1 h2 h4)
  · exact exec_feed_of_headDispatch (.inl hst) (headDispatch_premature h1 h2 h4)
  · have stays := headDispatch_tooShort s.dec h
    rw [Decoder.withState_self hst] at stays
    exact exec_feed_of_headDispatch (.inl hst) stays

/-- Settles O4: the head dispatch does not read the state, so the two ends are those of AwaitingHead. -/
theorem feedInUnknownActsAsInAwaitingHead : Obligations.FeedInUnknownActsAsInAwaitingHead := by
  intro d s hst
  have same := exec_feed_congr (feed_unknown_eq_awaitingHead d hst)
  obtain ⟨tooLong, -, -, -, -, tooShort⟩ := headPulseDispatch d
    { s with dec := { s.dec with state := .awaitingHead } } rfl
  exact ⟨same, fun h => same.trans (tooShort h), fun h => same.trans (tooLong h)⟩

/-- Settles O5: a tail above SYNC_MAX rejects before it is classified. -/
theorem longSyncTailRejects : Obligations.LongSyncTailRejects :=
  fun _ s hst h => exec_feed_of_syncTail hst (syncTail_long s.dec h)

/-- Settles O6: a tail in range is not read again as a head. -/
theorem syncTailInRangeCountsAPair : Obligations.SyncTailInRangeCountsAPair :=
  fun _ s hst h1 h2 => exec_feed_of_syncTail hst (syncTail_inRange s.dec h1 h2)

/-- Settles O7: the cases are those of the same pulse in AwaitingHead, with the pair counted. -/
theorem shortSyncTailIsCountedAndRedispatched : Obligations.ShortSyncTailIsCountedAndRedispatched := by
  intro d s hst h
  have same := exec_feed_congr (feed_shortTail hst h)
  obtain ⟨-, -, one, zero, premature, tooShort⟩ := headPulseDispatch d
    { s with dec := { s.dec with state := .awaitingHead, syncCount := s.dec.syncCount + 1 } } rfl
  refine ⟨same, fun h1 h4 => ?_, fun h1 h2 h4 => ?_, fun h1 h4 => same.trans (premature h1 h h4),
    fun h1 => same.trans (tooShort h1)⟩
  · rw [same, one h1 h h4, h4]
  · rw [same, zero h1 h2 h4, h4]

/-- Settles O8: APPEND writes the byte in progress only, and moves on by one bit. -/
theorem dataTailInsertsTheBit : Obligations.DataTailInsertsTheBit := by
  intro d s v hst hwf hb
  obtain ⟨bc, bi, e, within, eighth⟩ := append_incomplete v hb
  refine ⟨bc, bi, _, exec_feed_of_append d (confirming_of_data hst) e, within, eighth, ?_, fun k hk => ?_,
    fun j hj => Memory.read_insertBitAt_ne _ v hj⟩
  · rw [Memory.read_insertBitAt_same _ v hwf, getLsbD_insertBit, if_pos rfl]
  · rw [Memory.read_insertBitAt_same _ v hwf, getLsbD_insertBit, if_neg (by omega)]

/-- Settles O9: APPEND completes the frame, whose seven bytes are then reversed. -/
theorem seventhByteCompletesTheFrame : Obligations.SeventhByteCompletesTheFrame := by
  intro d s v hst hwf hb hi
  have hidx : s.dec.byteIndex = 6 := Fin.ext hi
  have completes := append_seventh (v := v) hb hi
  rw [hidx] at completes
  refine ⟨_, exec_feed_of_append d (confirming_of_data hst) completes, fun i k h hk => ?_, ?_, fun k h1 hk => ?_,
    fun i => Memory.read_completed_above hwf v, fun hinv => ?_⟩
  · rw [Memory.read_completed_below hwf v h, getLsbD_bitrev8 _ _ hk]
  · rw [Memory.read_completed_last hwf, getLsbD_bitrev8 _ _ (by decide), getLsbD_insertBit, if_pos rfl]
  · rw [Memory.read_completed_last hwf, getLsbD_bitrev8 _ _ hk, getLsbD_insertBit, if_neg (by omega),
      show 7 - k + 1 = 8 - k by omega]
  · obtain ⟨-, -, -, hdata, -, -, hclear, -⟩ := hinv
    exact ⟨hdata (hst.imp And.left And.left),
      fun i h => (Memory.read_completed_above hwf v h).trans (hclear i (.inr h))⟩

/-- Settles O10: RejectPending does not read the duration. -/
theorem rejectPendingRejectsAnyPulse : Obligations.RejectPendingRejectsAnyPulse :=
  fun _ _ hst => execFeed_of_some (feed_rejectPending hst)

/-- Settles O11: the fold over the run stops at its first operation. -/
theorem feedInDoneHasNoStep : Obligations.FeedInDoneHasNoStep := by
  intro d s
  refine ⟨fun hst => ?_, ?_⟩
  · have refused := execFeed_of_none (feed_done (x := d) hst)
    exact ⟨refused, fun ops => by simp only [runOps, refused]⟩
  · rw [← Bool.not_eq_true, pulseReady_iff, not_not]

/-- Settles O12: FEED takes the pulse, and its answer is a decoder and a result. -/
theorem feedCompletesOutsideDone : Obligations.FeedCompletesOutsideDone := by
  intro d s hst
  obtain ⟨r, dec, hf⟩ := feed_of_ne_done d hst
  exact ⟨dec, r, execFeed_of_some hf⟩

/-- Settles O22: under the invariant the byte index is at most 7, and the bound fires at 24 only. -/
theorem bufferOverflowIsUnreachable : Obligations.BufferOverflowIsUnreachable := by
  intro d s t hinv h
  obtain ⟨r, dec, hf, rfl⟩ := execFeed_next h
  have hle : s.dec.byteIndex.val ≤ 7 := hinv.1.1
  refine ⟨fun hr => ?_, fun hst c hr => ?_⟩
  · cases hr
    have hidx := (feed_bufferOverflow hf).1
    omega
  · cases hr
    obtain ⟨v, hv⟩ : ∃ v, s.dec.state = confirming v := hst.elim (⟨true, ·⟩) (⟨false, ·⟩)
    have hidx := (append_rejected (Option.some.inj ((feed_confirming d hv).symm.trans hf))).1
    omega

/-- Settles O26: the head only moves to RejectPending, which rejects any pulse. -/
theorem dataBeforeFourPairsIsRejected : Obligations.DataBeforeFourPairsIsRejected := by
  intro h x s hst hsync h1 h2
  exact ⟨_, exec_feed_of_headDispatch hst (headDispatch_premature h1 h2 hsync), rfl,
    rejectPendingRejectsAnyPulse x _ rfl⟩

/-! ### RESET, GETFRAME, nothing presented -/

/-- Settles O17: RESET reads nothing. -/
theorem resetFromAnyState : Obligations.ResetFromAnyState :=
  fun s => ⟨_, exec_reset s, rfl, exec_reset _, rfl⟩

/-- Settles O18: the frame read gives the first seven bytes of the memory. -/
theorem getFrameOnlyInDone : Obligations.GetFrameOnlyInDone :=
  fun s => ⟨fun h => ⟨_, exec_getframe_of_done h, Memory.frame_byte s.dec.buf⟩, exec_getframe_of_ne_done⟩

/-- Settles O50: a step with an empty list only answers. -/
theorem nothingPresentedNothingChanges : Obligations.NothingPresentedNothingChanges := by
  intro s h
  simp only [step, h, State.respond]

end Sys2Proof.Safety

/-! SUPPORT. An encoded frame at the decoder (41_decoder.md R87): the preamble brings the count to four, each pair
inserts its bit, and the 56th bit completes the frame. -/

namespace Sys2Proof.Machine

/-- The high pulse of a bit's pair (43_encoder.md R105, step 2). -/
def highOf (b : Bool) : Nat := if b then Config.oneHigh else Config.zeroHigh

/-- The low pulse of a bit's pair (43_encoder.md R105, step 2). -/
def lowOf (b : Bool) : Nat := if b then Config.oneLow else Config.zeroLow

theorem bitPair_eq (b : Bool) : bitPair b = [highOf b, lowOf b] := by cases b <;> rfl

/-- At a count of four the high pulse of a pair names its bit. -/
theorem headDispatch_highOf (b : Bool) {d : Decoder} (h : d.syncCount = 4) :
    headDispatch (highOf b) d = (.cont, { d with state := confirming b }) := by
  cases b with
  | true => exact headDispatch_oneBit (by decide) (by decide) h
  | false => exact headDispatch_zeroBit (by decide) (by decide) h

/-- The data bits of a frame read, by their places in the memory (20_memory.md R32). -/
theorem dataBit_frame (m : Memory) (n : Fin 56) :
    dataBit (Memory.frame m) n = (Memory.read m (Fin.ofNat 25 (n.val / 8))).getLsbD (7 - n.val % 8) := by
  have hbyte : Fin.castLE (by decide) (⟨n.val / 8, by omega⟩ : Fin 7) = Fin.ofNat 25 (n.val / 8) :=
    Fin.ext (Nat.mod_eq_of_lt (by omega)).symm
  rw [dataBit, Memory.frame_byte, hbyte]

/-- A packet is its 56 data bits. -/
theorem Packet.ext_dataBit {p q : Packet} (h : ∀ n, dataBit p n = dataBit q n) : p = q := by
  refine Packet.ext_byte fun i => BitVec.eq_of_getLsbD_eq fun k hk => ?_
  have hbit := h ⟨8 * i.val + (7 - k), by omega⟩
  have hdiv : (8 * i.val + (7 - k)) / 8 = i.val := by omega
  have hmod : 7 - (8 * i.val + (7 - k)) % 8 = k := by omega
  simpa only [dataBit, hdiv, hmod] using hbit

end Sys2Proof.Machine

namespace Sys2Proof.Safety

open Sys2Proof.Machine

/-! ### Folds of FEED -/

theorem feedAll_cons {x : Nat} {xs : List Nat} {d d' d'' : Decoder} {r : FeedResult} {rs : List FeedResult}
    (h : feed x d = some (r, d')) (hs : feedAll xs d' = some (rs, d'')) :
    feedAll (x :: xs) d = some (r :: rs, d'') := by
  simp only [feedAll, h, hs]

theorem feedAll_append {xs ys : List Nat} {d d' d'' : Decoder} {rs qs : List FeedResult}
    (hx : feedAll xs d = some (rs, d')) (hy : feedAll ys d' = some (qs, d'')) :
    feedAll (xs ++ ys) d = some (rs ++ qs, d'') := by
  induction xs generalizing d rs with
  | nil =>
    cases hx
    exact hy
  | cons x xs ih =>
    simp only [feedAll] at hx
    split at hx
    · cases hx
    · next r e he =>
      split at hx
      · cases hx
      · next ts f hf =>
        cases hx
        exact feedAll_cons he (ih hf)

/-- The rest of a fold sees of the decoder only what its first FEED answers. -/
theorem feedAll_cons_congr {x : Nat} {d e : Decoder} (h : feed x d = feed x e) (xs : List Nat) :
    feedAll (x :: xs) d = feedAll (x :: xs) e := by
  simp only [feedAll, h]

/-! ### A pair -/

/-- A decoder between two pairs of a frame, with these data bits received. -/
structure Receiving (d : Decoder) (bits : List Bool) : Prop where
  state : d.state = .awaitingHead
  synced : d.syncCount = 4
  inv : DecoderInv d
  holds : HoldsBits d bits

section
variable {d : Decoder} {bits : List Bool} (h : Receiving d bits) (b : Bool)
include h

theorem Receiving.feed_highOf : feed (highOf b) d = some (.cont, { d with state := confirming b }) := by
  rw [feed_awaitingHead h.state, headDispatch_highOf b h.synced]

/-- Whatever the low pulse of a pair does, the pair adds its bit to those the accumulator holds. -/
theorem Receiving.append_keeps :
    DecoderInv (append b { d with state := confirming b }).2 ∧
    HoldsBits (append b { d with state := confirming b }).2 (bits ++ [b]) := by
  have hne : confirming b ≠ .done := by cases b <;> decide
  have hinv : DecoderInv { d with state := confirming b } := feed_keeps_decoderInv h.inv (h.feed_highOf b)
  exact ⟨append_keeps_decoderInv b (hinv.assembling hne) h.synced,
    append_holdsBits b (h.holds.move (by simp [h.state]) _ _ hne) (hinv.assembling hne) hne⟩

/-- A pair before the 56th inserts its bit and the decoder waits for the next one. -/
theorem Receiving.pair (hlen : bits.length < 55) :
    ∃ d', feedAll (bitPair b) d = some ([.cont, .cont], d') ∧ Receiving d' (bits ++ [b]) := by
  have hcount : 8 * d.byteIndex.val + d.bitCount.val = bits.length := h.holds.1
  obtain ⟨bc, bi, e, -, -⟩ := append_incomplete b (d := { d with state := confirming b })
    (show d.bitCount.val < 7 ∨ d.byteIndex.val < 6 by omega)
  obtain ⟨hinv, hholds⟩ := h.append_keeps b
  rw [e] at hinv hholds
  have tail := (feed_confirming (lowOf b) rfl).trans (congrArg some e)
  rw [bitPair_eq]
  exact ⟨_, feedAll_cons (h.feed_highOf b) (feedAll_cons tail rfl), rfl, h.synced, hinv, hholds⟩

/-- The 56th pair completes the frame (41_decoder.md R80). -/
theorem Receiving.lastPair (hlen : bits.length = 55) :
    ∃ d', feedAll (bitPair b) d = some ([.cont, .frameReady], d') ∧
      d'.state = .done ∧ HoldsBits d' (bits ++ [b]) := by
  have hcount : 8 * d.byteIndex.val + d.bitCount.val = bits.length := h.holds.1
  have e := append_seventh (v := b) (d := { d with state := confirming b })
    (show d.bitCount.val = 7 by omega) (show d.byteIndex.val = 6 by omega)
  obtain ⟨-, hholds⟩ := h.append_keeps b
  rw [e] at hholds
  have tail := (feed_confirming (lowOf b) rfl).trans (congrArg some e)
  rw [bitPair_eq]
  exact ⟨_, feedAll_cons (h.feed_highOf b) (feedAll_cons tail rfl), rfl, hholds⟩

end

/-! ### A frame -/

/-- The remaining pairs of a frame answer Continue up to the last, which answers FrameReady. -/
theorem Receiving.pairs {d : Decoder} {bits : List Bool} (h : Receiving d bits) (b : Bool) (bs : List Bool)
    (hlen : (bits ++ b :: bs).length = 56) :
    ∃ d', feedAll ((b :: bs).flatMap bitPair) d =
        some (List.replicate (2 * bs.length + 1) .cont ++ [.frameReady], d') ∧
      d'.state = .done ∧ HoldsBits d' (bits ++ b :: bs) := by
  induction bs generalizing d bits b with
  | nil => simpa using h.lastPair b (by simpa using hlen)
  | cons c cs ih =>
    obtain ⟨d₁, hpair, h₁⟩ := h.pair b (by simp at hlen; omega)
    obtain ⟨d₂, hrest, hdone, hholds⟩ := ih h₁ c (by simpa using hlen)
    have hall := feedAll_append hpair hrest
    exact ⟨d₂, hall, hdone, by simpa using hholds⟩

/-- A complete frame that holds a packet's bits in order of transmission is the packet (20_memory.md R33). -/
theorem frame_of_holdsBits {d : Decoder} {p : Packet} (hdone : d.state = .done) (h : HoldsBits d (packetBits p)) :
    Memory.frame d.buf = p := by
  obtain ⟨-, hbits⟩ := (holdsBits_iff_of_done hdone).mp h
  refine Packet.ext_dataBit fun n => ?_
  have hsent := (List.getElem?_eq_getElem n.isLt).symm.trans (packetBits_get p n)
  exact (dataBit_frame d.buf n).trans ((hbits n n.isLt).trans (Option.some_inj.mp hsent))

/-- The decoder after four sync pairs. -/
def afterPreamble : Decoder := { Decoder.atReset with state := .awaitingHead, syncCount := 4 }

theorem feedAll_preamble : feedAll preamble Decoder.atReset = some (List.replicate 8 .cont, afterPreamble) := by decide

theorem receiving_afterPreamble : Receiving afterPreamble [] :=
  have clear : Assembling afterPreamble :=
    ⟨by decide, fun _ => Nat.le_refl 4, fun i _ => Memory.read_nil i, rfl⟩
  ⟨rfl, rfl, clear.decoderInv (by decide) (by decide) (by decide) (by decide),
    holdsBits_atReset.move (by decide) _ _ (by decide)⟩

/-- The pairs of a packet, fed after four sync pairs, give the packet. -/
theorem feedAll_packetBits (p : Packet) :
    ∃ d, feedAll ((packetBits p).flatMap bitPair) afterPreamble =
        some (List.replicate 111 .cont ++ [.frameReady], d) ∧
      d.state = .done ∧ Memory.frame d.buf = p := by
  obtain ⟨d, hfeed, hdone, hholds⟩ := receiving_afterPreamble.pairs (p.b0.getLsbD 7) (packetBits p).tail rfl
  exact ⟨d, hfeed, hdone, frame_of_holdsBits hdone hholds⟩

theorem encodePulses_take_frame (p : Packet) :
    (encodePulses p).take 120 = preamble ++ (packetBits p).flatMap bitPair := by
  refine List.take_left' ?_
  rw [List.length_append, bitPairs_length, packetBits_length]
  rfl

/-- Settles O24: the preamble, then the pairs of the packet's bits. -/
theorem encodedFrameIsDecoded : Obligations.EncodedFrameIsDecoded := by
  intro p
  obtain ⟨d, hfeed, hframe⟩ := feedAll_packetBits p
  rw [encodePulses_take_frame]
  have hall := feedAll_append feedAll_preamble hfeed
  exact ⟨d, hall, hframe⟩

/-! ### The first pulse dropped -/

/-- The decoder that waits for the tail of the fourth sync pair. -/
def beforeFourth : Decoder := { Decoder.atReset with state := .confirmSync, syncCount := 3 }

/-- Without its first pulse the preamble is three pairs and the head of a fourth. -/
theorem feedAll_preamble_tail :
    feedAll preamble.tail Decoder.atReset = some (List.replicate 7 .cont, beforeFourth) := by decide

/-- The high pulse of a pair, read as the tail of the fourth sync pair, counts it and is read again as a head. -/
theorem feedAll_pairs_beforeFourth (b : Bool) (bs : List Bool) :
    feedAll ((b :: bs).flatMap bitPair) beforeFourth = feedAll ((b :: bs).flatMap bitPair) afterPreamble := by
  have hshort : highOf b ≤ 499 := by cases b <;> decide
  rw [List.flatMap_cons, bitPair_eq]
  exact feedAll_cons_congr (feed_shortTail rfl hshort) _

/-- Settles O25: the first data pulse does for the decoder what the tail of the fourth sync pair and it do otherwise. -/
theorem encodedFrameIsDecodedWithoutItsFirstPulse : Obligations.EncodedFrameIsDecodedWithoutItsFirstPulse := by
  intro p
  obtain ⟨d, hfeed, hframe⟩ := feedAll_packetBits p
  rw [encodePulses_take_frame]
  have hpairs := (feedAll_pairs_beforeFourth (p.b0.getLsbD 7) (packetBits p).tail).trans hfeed
  have hall := feedAll_append feedAll_preamble_tail hpairs
  exact ⟨d, hall, hframe⟩

end Sys2Proof.Safety

/-! SUPPORT. The operations of the validator (42_validator.md): what each answers, and when VALIDATE accepts. -/

namespace Sys2Proof.Machine

/-! ### What the operations answer -/

theorem exec_parity (b : Byte) (s : State) :
    exec (.parity b) s = .next { s with response := .parity (parityGood b) } := rfl

theorem exec_checksum (p : Packet) (s : State) :
    exec (.checksum p) s = .next { s with response := .checksum (checksumGood p) (sum8 p) } := rfl

theorem exec_extract (p : Packet) (s : State) :
    exec (.extract p) s = .next { s with response := .fields (extract p) } := rfl

theorem exec_validate (p : Packet) (s : State) :
    exec (.validate p) s = .next { s with response := .validation (validate p) } := rfl

theorem exec_parity_iff {b : Byte} {g : Bool} {s : State} :
    exec (.parity b) s = .next { s with response := .parity g } ↔ parityGood b = g := by
  simp [exec_parity]

theorem exec_checksum_iff {p : Packet} {g : Bool} {sum : Byte} {s : State} :
    exec (.checksum p) s = .next { s with response := .checksum g sum } ↔ checksumGood p = g ∧ sum8 p = sum := by
  simp [exec_checksum]

theorem exec_validate_iff {p : Packet} {v : Validation} {s : State} :
    exec (.validate p) s = .next { s with response := .validation v } ↔ validate p = v := by
  simp [exec_validate]

/-! ### Parity -/

/-- A fold of XOR over the bits that `f` names is the parity of their number. -/
theorem foldl_xor_eq_odd (f : Nat → Bool) (l : List Nat) (x : Bool) :
    l.foldl (fun x i => x ^^ f i) x = (x ^^ decide (l.countP f % 2 = 1)) := by
  induction l generalizing x with
  | nil => simp
  | cons i l ih =>
    rw [List.foldl_cons, ih, List.countP_cons]
    cases hi : f i with
    | false => simp
    | true =>
      have hflip : decide ((l.countP f + 1) % 2 = 1) = !decide (l.countP f % 2 = 1) := by
        rw [← decide_not, decide_eq_decide]
        omega
      simp [hflip]

theorem par7_eq_foldl (b : Byte) : par7 b = (List.range 7).foldl (fun x i => x ^^ b.getLsbD i) false := by
  simp [par7, List.range_succ]

theorem parityGood_iff (b : Byte) :
    parityGood b = true ↔ (List.range 7).foldl (fun x i => x ^^ b.getLsbD i) false = b.getLsbD 7 := by
  rw [parityGood, beq_iff_eq, par7_eq_foldl]

/-- The XOR of all eight bits of a good byte is 0 (42_validator.md R90). -/
theorem parityGood_iff_even (b : Byte) :
    parityGood b = true ↔ (List.range 8).countP (fun i => b.getLsbD i) % 2 = 0 := by
  have hall : (List.range 8).foldl (fun x i => x ^^ b.getLsbD i) false =
      ((List.range 7).foldl (fun x i => x ^^ b.getLsbD i) false ^^ b.getLsbD 7) := by
    rw [List.range_succ, List.foldl_append]
    rfl
  rw [foldl_xor_eq_odd, Bool.false_xor] at hall
  calc parityGood b = true
      ↔ (List.range 7).foldl (fun x i => x ^^ b.getLsbD i) false = b.getLsbD 7 := parityGood_iff b
    _ ↔ ((List.range 7).foldl (fun x i => x ^^ b.getLsbD i) false ^^ b.getLsbD 7) = false := bne_eq_false_iff_eq.symm
    _ ↔ (List.range 8).countP (fun i => b.getLsbD i) % 2 = 0 := by
      rw [← hall, decide_eq_false_iff_not]
      exact Nat.mod_two_ne_one

/-! ### VALIDATE -/

/-- Bytes 1 to 5 of a packet, the ones VALIDATE checks the parity of, are good (42_validator.md R92, step 1). -/
def ParitiesGood (p : Packet) : Prop :=
  ∀ i : Fin 7, 1 ≤ i.val → i.val ≤ 5 → parityGood (Packet.byte p i) = true

theorem paritiesGood_iff (p : Packet) :
    ParitiesGood p ↔ parityGood p.b1 = true ∧ parityGood p.b2 = true ∧ parityGood p.b3 = true ∧
      parityGood p.b4 = true ∧ parityGood p.b5 = true := by
  constructor
  · intro h
    exact ⟨h 1 (by decide) (by decide), h 2 (by decide) (by decide), h 3 (by decide) (by decide),
      h 4 (by decide) (by decide), h 5 (by decide) (by decide)⟩
  · rintro ⟨h1, h2, h3, h4, h5⟩ i hlow hhigh
    match i with
    | 1 => exact h1
    | 2 => exact h2
    | 3 => exact h3
    | 4 => exact h4
    | 5 => exact h5

/-- Step 1 fails at the first bad byte (42_validator.md R92). -/
theorem validate_of_firstBad {p : Packet} {i : Fin 7} (hlow : 1 ≤ i.val) (hhigh : i.val ≤ 5)
    (hbad : parityGood (Packet.byte p i) = false)
    (hgood : ∀ j : Fin 7, 1 ≤ j.val → j.val < i.val → parityGood (Packet.byte p j) = true) :
    validate p = .parityMismatch i := by
  have h1 := hgood 1 (by decide)
  have h2 := hgood 2 (by decide)
  have h3 := hgood 3 (by decide)
  have h4 := hgood 4 (by decide)
  match i with
  | 1 | 2 | 3 | 4 | 5 => simp_all [validate, Packet.byte]

/-- Past step 1 the checksum decides (42_validator.md R92, step 2). -/
theorem validate_of_paritiesGood {p : Packet} (h : ParitiesGood p) :
    validate p = if checksumGood p = true then .ok (extract p) else .checksumMismatch := by
  obtain ⟨h1, h2, h3, h4, h5⟩ := (paritiesGood_iff p).mp h
  cases hc : checksumGood p <;> simp [validate, h1, h2, h3, h4, h5, hc]

/-- The six conditions VALIDATE requires are all that it requires (42_validator.md R103). -/
theorem validate_accepts_iff (p : Packet) : (∃ r, validate p = .ok r) ↔ ParitiesGood p ∧ checksumGood p = true := by
  simp [validate_ok_iff, paritiesGood_iff, and_assoc]

/-! ### The temperatures -/

theorem tempC10_bounds (raw : BitVec 11) : -1024 ≤ tempC10 raw ∧ tempC10 raw ≤ 1023 := by
  have := raw.isLt
  simp only [tempC10, Config.tempOffset]
  omega

theorem tempF100_bounds (raw : BitVec 11) : -15232 ≤ tempF100 raw ∧ tempF100 raw ≤ 21614 := by
  have := tempC10_bounds raw
  rw [tempF100]
  omega

/-- To invert the top bit of 11 bits is to add its weight modulo their number. -/
theorem xor_topBit_toNat (raw : BitVec 11) : (raw ^^^ 0x400).toNat = (raw.toNat + 1024) % 2048 := by
  have hlt := raw.isLt
  have hlow : (raw.toNat ^^^ 1024) % 1024 = raw.toNat % 1024 := by
    rw [show 1024 = 2 ^ 10 from rfl, Nat.xor_mod_two_pow, Nat.mod_self, Nat.xor_zero]
  have htop : (raw.toNat ^^^ 1024) / 1024 = raw.toNat / 1024 ^^^ 1 := by
    rw [show 1024 = 2 ^ 10 from rfl, Nat.xor_div_two_pow, Nat.div_self (by decide)]
  rw [BitVec.toNat_xor, show (0x400 : BitVec 11).toNat = 1024 from rfl]
  obtain h | h : raw.toNat / 1024 = 0 ∨ raw.toNat / 1024 = 1 := by omega
  all_goals
    rw [h] at htop
    simp only [Nat.reduceXor] at htop
    omega

/-- The 11 bits of `temp_c10` are `temperatureRaw` with its top bit inverted (42_validator.md R98). -/
theorem ofInt_tempC10 (raw : BitVec 11) : BitVec.ofInt 11 (tempC10 raw) = raw ^^^ 0x400 := by
  apply BitVec.eq_of_toNat_eq
  rw [xor_topBit_toNat, BitVec.toNat_ofInt]
  simp only [tempC10, Config.tempOffset]
  omega

/-! ### One flipped bit -/

theorem xor_twoPow_ne {w k : Nat} (hk : k < w) (b : BitVec w) : b ^^^ BitVec.twoPow w k ≠ b := by
  intro h
  have hbit := congrArg (fun x => x.getLsbD k) h
  simp [hk] at hbit

theorem Packet.byte_eq_extractLsb' (p : Packet) (i : Fin 7) :
    Packet.byte p i = p.toBits.extractLsb' (48 - 8 * i.val) 8 := by
  rw [← Packet.byte_ofBits, Packet.ofBits_toBits]

/-- Byte `i` of the 56-bit view is bits `8 * (6 - i)` to `8 * (6 - i) + 7` (20_memory.md R34). -/
theorem extractLsb'_twoPow {n : Nat} (hn : n < 56) (i : Fin 7) :
    (BitVec.twoPow 56 n).extractLsb' (48 - 8 * i.val) 8 =
      if i.val = 6 - n / 8 then BitVec.twoPow 8 (n % 8) else 0 := by
  ext k hk
  rw [BitVec.getElem_extractLsb', BitVec.getLsbD_twoPow]
  split
  · simp only [BitVec.getElem_twoPow, hn, decide_true, Bool.true_and, decide_eq_decide]
    omega
  · simp only [BitVec.ofNat_eq_ofNat, BitVec.getElem_zero, hn, decide_true, Bool.true_and, decide_eq_false_iff_not]
    omega

/-- The packet with bit `n` of its 56-bit view flipped (42_validator.md R104). -/
def Packet.flipBit (p : Packet) (n : Nat) : Packet := Packet.ofBits (p.toBits ^^^ BitVec.twoPow 56 n)

theorem Packet.byte_flipBit_same (p : Packet) {n : Nat} (hn : n < 56) {i : Fin 7} (hi : i.val = 6 - n / 8) :
    Packet.byte (Packet.flipBit p n) i = Packet.byte p i ^^^ BitVec.twoPow 8 (n % 8) := by
  rw [Packet.flipBit, Packet.byte_ofBits, BitVec.extractLsb'_xor, extractLsb'_twoPow hn, if_pos hi,
    Packet.byte_eq_extractLsb']

theorem Packet.byte_flipBit_other (p : Packet) {n : Nat} (hn : n < 56) {i : Fin 7} (hi : i.val ≠ 6 - n / 8) :
    Packet.byte (Packet.flipBit p n) i = Packet.byte p i := by
  rw [Packet.flipBit, Packet.byte_ofBits, BitVec.extractLsb'_xor, extractLsb'_twoPow hn, if_neg hi,
    Packet.byte_eq_extractLsb']
  exact BitVec.xor_zero

theorem Packet.byte_flipBit_ne (p : Packet) {n : Nat} (hn : n < 56) {i : Fin 7} (hi : i.val = 6 - n / 8) :
    Packet.byte (Packet.flipBit p n) i ≠ Packet.byte p i := by
  rw [Packet.byte_flipBit_same p hn hi]
  exact xor_twoPow_ne (by omega) _

/-- With bytes 1 to 5 the same, the sum and byte 0 determine each other. -/
theorem sum8_eq_sum8_iff {p q : Packet} (h : ∀ i : Fin 7, 1 ≤ i.val → i.val ≤ 5 → Packet.byte q i = Packet.byte p i) :
    sum8 q = sum8 p ↔ q.b0 = p.b0 := by
  have h1 : q.b1 = p.b1 := h 1 (by decide) (by decide)
  have h2 : q.b2 = p.b2 := h 2 (by decide) (by decide)
  have h3 : q.b3 = p.b3 := h 3 (by decide) (by decide)
  have h4 : q.b4 = p.b4 := h 4 (by decide) (by decide)
  have h5 : q.b5 = p.b5 := h 5 (by decide) (by decide)
  simp only [sum8_eq, h1, h2, h3, h4, h5, BitVec.add_left_inj]

/-- A change of one side of the comparison, byte 0 or byte 6, makes a good checksum bad (42_validator.md R104). -/
theorem checksumGood_eq_false_of_oneSide {p q : Packet} (hp : checksumGood p = true)
    (hsame : ∀ i : Fin 7, 1 ≤ i.val → i.val ≤ 5 → Packet.byte q i = Packet.byte p i)
    (hone : q.b0 = p.b0 ↔ q.b6 ≠ p.b6) : checksumGood q = false := by
  rw [checksumGood_iff] at hp
  refine Bool.eq_false_iff.mpr fun hq => ?_
  rw [checksumGood_iff] at hq
  have hsum := sum8_eq_sum8_iff hsame
  rw [hq, hp] at hsum
  tauto

/-- A flipped bit in bytes 1 to 5 fails step 1 (42_validator.md R104). -/
theorem validate_flipBit_middle {p : Packet} {n : Nat} (hlow : 8 ≤ n) (hhigh : n < 48) (hp : ParitiesGood p) :
    validate (Packet.flipBit p n) = .parityMismatch (Fin.ofNat 7 (6 - n / 8)) := by
  have hi : (Fin.ofNat 7 (6 - n / 8)).val = 6 - n / 8 := Nat.mod_eq_of_lt (by omega)
  refine validate_of_firstBad (by omega) (by omega) ?_ fun j hj hji => ?_
  · rw [Packet.byte_flipBit_same p (by omega) hi]
    exact parityGood_flip _ ⟨n % 8, by omega⟩ (hp _ (by omega) (by omega))
  · rw [Packet.byte_flipBit_other p (by omega) (by omega)]
    exact hp j hj (by omega)

/-- A flipped bit in byte 0 or byte 6 passes step 1 and fails step 2 (42_validator.md R104). -/
theorem validate_flipBit_outer {p : Packet} {n : Nat} (hn : n < 56) (houter : n < 8 ∨ 48 ≤ n) (hp : ParitiesGood p)
    (hsum : checksumGood p = true) : validate (Packet.flipBit p n) = .checksumMismatch := by
  have hsame (i : Fin 7) (hlow : 1 ≤ i.val) (hhigh : i.val ≤ 5) :
      Packet.byte (Packet.flipBit p n) i = Packet.byte p i := Packet.byte_flipBit_other p hn (by omega)
  have hparities : ParitiesGood (Packet.flipBit p n) := fun i hlow hhigh => by
    rw [hsame i hlow hhigh]
    exact hp i hlow hhigh
  have hone : (Packet.flipBit p n).b0 = p.b0 ↔ (Packet.flipBit p n).b6 ≠ p.b6 := by
    obtain hn8 | hn48 := houter
    · exact iff_of_true (Packet.byte_flipBit_other p hn (i := 0) (by omega))
        (Packet.byte_flipBit_ne p hn (i := 6) (by omega))
    · exact iff_of_false (Packet.byte_flipBit_ne p hn (i := 0) (by omega))
        (not_not.mpr (Packet.byte_flipBit_other p hn (i := 6) (by omega)))
  rw [validate_of_paritiesGood hparities, checksumGood_eq_false_of_oneSide hsum hsame hone]
  rfl

/-! ### The free bits -/

/-- The packet that carries the 43 free bits: five parity bits and the sum are put to them (42_validator.md R103). -/
def packetOfFreeBits (b0 : Byte) (v1 v2 v3 v4 v5 : BitVec 7) : Packet :=
  let p : Packet := ⟨b0, withpar v1, withpar v2, withpar v3, withpar v4, withpar v5, 0⟩
  { p with b6 := sum8 p }

theorem validate_accepts_packetOfFreeBits (b0 : Byte) (v1 v2 v3 v4 v5 : BitVec 7) :
    ∃ r, validate (packetOfFreeBits b0 v1 v2 v3 v4 v5) = .ok r :=
  (validate_accepts_iff _).mpr ⟨(paritiesGood_iff _).mpr ⟨parityGood_withpar v1, parityGood_withpar v2,
    parityGood_withpar v3, parityGood_withpar v4, parityGood_withpar v5⟩, (checksumGood_iff _).mpr rfl⟩

/-- The parity bits and byte 6 of an accepted packet follow from the rest. -/
theorem eq_packetOfFreeBits {p : Packet} (hp : ∃ r, validate p = .ok r) :
    p = packetOfFreeBits p.b0 (low7 p.b1) (low7 p.b2) (low7 p.b3) (low7 p.b4) (low7 p.b5) := by
  obtain ⟨hparities, hsum⟩ := (validate_accepts_iff p).mp hp
  obtain ⟨h1, h2, h3, h4, h5⟩ := (paritiesGood_iff p).mp hparities
  obtain ⟨b0, b1, b2, b3, b4, b5, b6⟩ := p
  simp only [packetOfFreeBits, ← eq_withpar_low7 _ h1, ← eq_withpar_low7 _ h2, ← eq_withpar_low7 _ h3,
    ← eq_withpar_low7 _ h4, ← eq_withpar_low7 _ h5]
  exact congrArg _ ((checksumGood_iff _).mp hsum).symm

end Sys2Proof.Machine

namespace Sys2Proof.Safety

open Sys2Proof.Machine

/-- Settles O29: the XOR of all eight bits is the parity of the number of ones. -/
theorem parityIsAnEvenNumberOfOnes : Obligations.ParityIsAnEvenNumberOfOnes := fun b s =>
  ⟨parityGood b, exec_parity b s, parityGood_iff b, parityGood_iff_even b⟩

/-- Settles O30: the sum modulo 256 is the sum of an adder that wraps. -/
theorem checksumAnswersTheSumAndWhetherItMatches : Obligations.ChecksumAnswersTheSumAndWhetherItMatches := fun p s =>
  ⟨checksumGood p, sum8 p, exec_checksum p s, BitVec.toNat_ofNat _ _, sum8_eq p, checksumGood_iff p⟩

/-- Settles O31: step 1 stops at the first bad byte, and without one the checksum decides. -/
theorem validateReportsTheFirstFailure : Obligations.ValidateReportsTheFirstFailure := by
  intro p s
  simp only [exec_parity_iff, exec_checksum_iff, exec_validate_iff]
  refine ⟨fun i hlow hhigh hbad hgood => validate_of_firstBad hlow hhigh hbad hgood, fun hparities sum => ?_⟩
  rw [validate_of_paritiesGood hparities]
  constructor
  · rintro ⟨hbad, -⟩
    rw [hbad]
    rfl
  · rintro ⟨hgood, -⟩
    exact ⟨extract p, if_pos hgood, exec_extract p s⟩

/-- Settles O32: each field of the reading as a number. -/
theorem extractComputesTheFields : Obligations.ExtractComputesTheFields := fun p s =>
  ⟨extract p, exec_extract p s, channelOf_toNat p, sensorIdOf_toNat p, low7_toNat p.b3, temperatureRawOf_toNat p,
    rfl, rfl, rfl⟩

/-- Settles O33: 11 raw bits bound both temperatures. -/
theorem temperaturesFitTheirWidths : Obligations.TemperaturesFitTheirWidths := by
  intro p s
  obtain ⟨hc_low, hc_high⟩ := tempC10_bounds (temperatureRawOf p)
  obtain ⟨hf_low, hf_high⟩ := tempF100_bounds (temperatureRawOf p)
  exact ⟨extract p, exec_extract p s, hc_low, hc_high, hf_low, hf_high, tempC10_toInt_ofInt _, ofInt_tempC10 _,
    tempF100_toInt_ofInt _⟩

/-- Settles O34: the flipped bit spoils its byte's parity, or one side of the comparison of the checksum. -/
theorem singleFlippedBitIsCaught : Obligations.SingleFlippedBitIsCaught := by
  intro p s r n hn haccepted
  obtain ⟨hparities, hsum⟩ := (validate_accepts_iff p).mp ⟨r, exec_validate_iff.mp haccepted⟩
  refine exec_validate_iff.mpr ?_
  split
  next hmiddle => exact validate_flipBit_middle hmiddle.1 hmiddle.2 hparities
  next houter => exact validate_flipBit_outer hn (by omega) hparities hsum

/-- Settles O35: the packet that the free bits determine is accepted, and an accepted packet is that packet. -/
theorem freeBitsDetermineTheAcceptedPacket : Obligations.FreeBitsDetermineTheAcceptedPacket := by
  intro b0 v1 v2 v3 v4 v5 s
  simp only [exec_validate_iff]
  refine ⟨packetOfFreeBits b0 v1 v2 v3 v4 v5, ⟨rfl, low7_withpar v1, low7_withpar v2, low7_withpar v3,
    low7_withpar v4, low7_withpar v5, validate_accepts_packetOfFreeBits b0 v1 v2 v3 v4 v5⟩, ?_⟩
  rintro q ⟨rfl, rfl, rfl, rfl, rfl, rfl, haccepted⟩
  exact eq_packetOfFreeBits haccepted

end Sys2Proof.Safety

/-! SUPPORT. The operations of the encoder (43_encoder.md): the pulse list by index, its sum, the sequencer after a
count of ENC_NEXTs, and the fields of an assembled packet. -/

namespace Sys2Proof.Machine

/-! ### What the operations answer -/

theorem exec_encode (p : Packet) (s : State) :
    exec (.encode p) s = .next { s with response := .durations (encodePulses p) } := rfl

theorem exec_assemble (c : BitVec 2) (sid : BitVec 13) (h : BitVec 7) (raw : BitVec 11) (s : State) :
    exec (.assemble c sid h raw) s = .next { s with response := .assembled (assemble c sid h raw) } := rfl

/-- While an element is left ENC_NEXT hands it out and counts on (43_encoder.md R109). -/
theorem exec_encNext_of_elementLeft {s : State} (hl : s.enc.loaded = true) (hi : s.enc.idx.val ≤ 121) :
    exec .encNext s = .next { s with
      enc := { s.enc with idx := ⟨s.enc.idx.val + 1, by omega⟩ }
      response := .element (some ⟨elem s.enc.pkt ⟨s.enc.idx.val, by omega⟩, levelOf s.enc.idx.val,
        decide (s.enc.idx.val = 121)⟩) } := by
  obtain ⟨_, -, hc, ha⟩ | ⟨hnot, -⟩ := next_cases s.enc
  · rw [exec_encNext, hc, ha]
    rfl
  · obtain hnot | hnot := hnot
    · simp [hl] at hnot
    · omega

/-- With no element left ENC_NEXT writes nothing (43_encoder.md R109). -/
theorem exec_encNext_of_noElementLeft {s : State} (h : s.enc.loaded = false ∨ s.enc.idx.val = 122) :
    exec .encNext s = .next { s with response := .element none } := by
  obtain ⟨hi, hl, -⟩ | ⟨-, hc, ha⟩ := next_cases s.enc
  · obtain h | h := h
    · simp [hl] at h
    · omega
  · rw [exec_encNext, hc, ha]
    rfl

theorem levelOf_eq_high_iff (k : Nat) : levelOf k = .high ↔ k % 2 = 0 := by
  unfold levelOf
  split <;> simp [*]

/-! ### ENCODE by index -/

theorem encodePulses_length (p : Packet) : (encodePulses p).length = 122 := by
  rw [encodePulses, List.length_append, List.length_append, bitPairs_length, packetBits_length]
  rfl

/-- The four sync pairs (43_encoder.md R105, step 1). -/
theorem encodePulses_syncPair (p : Packet) {j : Nat} (h : j < 4) :
    (encodePulses p)[2 * j]? = some 662 ∧ (encodePulses p)[2 * j + 1]? = some 564 := by
  rw [encodePulses_preamble p (by omega), encodePulses_preamble p (by omega)]
  match j with
  | 0 | 1 | 2 | 3 => exact ⟨rfl, rfl⟩

/-- The pair of a data bit (43_encoder.md R105, step 2). -/
theorem encodePulses_bitPair (p : Packet) (n : Fin 56) :
    (encodePulses p)[8 + 2 * n.val]? = some (if dataBit p n then 436 else 245) ∧
    (encodePulses p)[9 + 2 * n.val]? = some (if dataBit p n then 180 else 366) := by
  have hpair := bitPairs_get (packetBits p) n.val
  rw [packetBits_get] at hpair
  rw [show 9 + 2 * n.val = 8 + (2 * n.val + 1) by omega, encodePulses_data p (by omega), encodePulses_data p (by omega)]
  exact hpair

/-- The list and the formula for its elements agree (43_encoder.md R106). -/
theorem encodePulses_getElem? (p : Packet) (k : Fin 122) : (encodePulses p)[k.val]? = some (elem p k) := by
  obtain ⟨k, hk⟩ := k
  obtain hsync | hdata | rfl | rfl : k < 8 ∨ (8 ≤ k ∧ k < 120) ∨ k = 120 ∨ k = 121 := by omega
  · obtain ⟨hhigh, hlow⟩ := encodePulses_syncPair p (j := k / 2) (by omega)
    simp only [elem, if_pos hsync]
    split
    · rwa [show 2 * (k / 2) = k by omega] at hhigh
    · rwa [show 2 * (k / 2) + 1 = k by omega] at hlow
  · obtain ⟨hhigh, hlow⟩ := encodePulses_bitPair p ⟨(k - 8) / 2, by omega⟩
    simp only [elem, if_neg (show ¬ k < 8 by omega), dif_pos hdata.2]
    obtain heven | hodd := Nat.mod_two_eq_zero_or_one k
    · simp only [show 8 + 2 * ((k - 8) / 2) = k by omega] at hhigh
      simpa only [heven, if_true] using hhigh
    · simp only [show 9 + 2 * ((k - 8) / 2) = k by omega] at hlow
      simpa only [hodd, Nat.one_ne_zero, if_false] using hlow
  · exact encodePulses_tail p 0
  · exact encodePulses_tail p 1

theorem maxPulse_lt_idleGap : Config.maxPulse < Config.idleGap := Nat.lt_add_right _ (Nat.lt_succ_self _)

/-! ### The sum of ENCODE, and what it determines -/

theorem bitPair_sum (b : Bool) : (bitPair b).sum = 611 + 5 * b.toNat := by cases b <;> rfl

theorem bitPairs_sum (bs : List Bool) : (bs.flatMap bitPair).sum = 611 * bs.length + 5 * bs.countP id := by
  induction bs with
  | nil => rfl
  | cons b bs ih =>
    rw [List.flatMap_cons, List.sum_append, bitPair_sum, ih, List.length_cons, List.countP_cons]
    cases b <;> simp <;> omega

/-- The bits in order of transmission are those of the 56-bit view from the top down (20_memory.md R32, R34). -/
theorem packetBits_eq_map_toBits (p : Packet) :
    packetBits p = (List.range 56).reverse.map fun n => p.toBits.getLsbD n := by
  refine List.ext_getElem? fun n => ?_
  by_cases hn : n < 56
  · rw [packetBits_get p ⟨n, hn⟩, ← Packet.getLsbD_toBits, List.getElem?_map,
      List.getElem?_reverse (by simpa using hn), List.length_range, List.getElem?_range (by omega), Option.map_some]
  · rw [List.getElem?_eq_none (by simpa [packetBits_length] using hn), List.getElem?_eq_none (by simpa using hn)]

theorem packetBits_countP (p : Packet) :
    (packetBits p).countP id = (List.range 56).countP fun n => p.toBits.getLsbD n := by
  rw [packetBits_eq_map_toBits, List.countP_map, List.countP_reverse]
  rfl

theorem encodePulses_sum (p : Packet) :
    (encodePulses p).sum = 39220 + 5 * (packetBits p).countP id + Config.idleGap := by
  have hpreamble : preamble.sum = 4904 := rfl
  have hend : [Config.stopHigh, Config.idleGap].sum = 100 + Config.idleGap := rfl
  rw [encodePulses, List.sum_append, List.sum_append, bitPairs_sum, packetBits_length, hpreamble, hend]
  omega

/-- The high pulse of each pair names its bit (43_encoder.md R107). -/
theorem encodePulses_injective {p q : Packet} (h : encodePulses p = encodePulses q) : p = q := by
  refine Packet.ext_dataBit fun n => ?_
  have hpulse := (encodePulses_bitPair p n).1
  rw [h, (encodePulses_bitPair q n).1] at hpulse
  cases hp : dataBit p n <;> cases hq : dataBit q n <;> simp [hp, hq] at hpulse ⊢

/-! ### The sequencer after a count of ENC_NEXTs -/

/-- The sequencer that has been asked for `k` elements of a packet; at 122 it stays (43_encoder.md R109). -/
def sequencerAt (p : Packet) (k : Nat) : Encoder := { pkt := p, idx := ⟨min 122 k, by omega⟩, loaded := true }

theorem loadPacket_eq (p : Packet) : loadPacket p = sequencerAt p 0 := rfl

theorem restart_sequencerAt (p : Packet) (k : Nat) : restart (sequencerAt p k) = sequencerAt p 0 := rfl

theorem advance_sequencerAt (p : Packet) (k : Nat) : advance (sequencerAt p k) = sequencerAt p (k + 1) := by
  obtain ⟨hi, -, -, ha⟩ | ⟨hi, -, ha⟩ := next_cases (sequencerAt p k)
  all_goals
    rw [ha]
    simp [sequencerAt] at hi ⊢
    omega

theorem currentElement_sequencerAt_of_lt (p : Packet) {k : Nat} (h : k < 122) :
    currentElement (sequencerAt p k) = some ⟨elem p ⟨k, h⟩, levelOf k, decide (k = 121)⟩ := by
  have hidx : min 122 k = k := by omega
  simp [currentElement, sequencerAt, hidx, show k ≤ 121 by omega]

theorem currentElement_sequencerAt_of_ge (p : Packet) {k : Nat} (h : 122 ≤ k) :
    currentElement (sequencerAt p k) = none := by
  simp [currentElement, sequencerAt, h]

/-- The count of ENC_NEXTs since the last load or restart, after one more operation (43_encoder.md R111). -/
def countAfter (k : Nat) (i : Instr) : Nat := if i = .encRestart then 0 else k + 1

/-- What an operation answers at a count (43_encoder.md R111). -/
def replayAnswer (p : Packet) (k : Nat) (i : Instr) : Response :=
  if i = .encRestart then .none else .element (currentElement (sequencerAt p k))

/-- ENC_NEXT and ENC_RESTART take the sequencer from one count to the next. -/
theorem exec_of_sequencerAt {i : Instr} {p : Packet} {k : Nat} {s : State} (hi : i = .encNext ∨ i = .encRestart)
    (he : s.enc = sequencerAt p k) :
    exec i s = .next ((s.withEnc (sequencerAt p (countAfter k i))).respond (replayAnswer p k i)) := by
  obtain rfl | rfl := hi
  · rw [exec_encNext, he, advance_sequencerAt]
    rfl
  · rw [exec_encRestart, he, restart_sequencerAt]
    rfl

/-! ### ASSEMBLE -/

theorem withpar_toNat_mod (v : BitVec 7) : (withpar v).toNat % 128 = v.toNat := by
  rw [← low7_toNat, low7_withpar]

section
variable (c : BitVec 2) (sid : BitVec 13) (h : BitVec 7) (raw : BitVec 11)

/-- An assembled packet is the accepted packet of its fields, the unused bits zero (43_encoder.md R112). -/
theorem assemble_eq_packetOfFreeBits :
    assemble c sid h raw = packetOfFreeBits (c ++ sid.extractLsb' 7 6) (sid.extractLsb' 0 7) (low7 Config.signature) h
      (0#3 ++ raw.extractLsb' 7 4) (raw.extractLsb' 0 7) := rfl

theorem assemble_b0_toNat : (assemble c sid h raw).b0.toNat = c.toNat * 64 + sid.toNat / 128 := by
  have := sid.isLt
  show (c ++ sid.extractLsb' 7 6).toNat = _
  rw [toNat_append, BitVec.extractLsb'_toNat, Nat.shiftRight_eq_div_pow]
  omega

theorem assemble_b1_toNat : (assemble c sid h raw).b1.toNat % 128 = sid.toNat % 128 := by
  show (withpar (sid.extractLsb' 0 7)).toNat % 128 = _
  rw [withpar_toNat_mod, BitVec.extractLsb'_toNat]
  rfl

theorem assemble_b2 : (assemble c sid h raw).b2 = 0x44 := by
  show withpar (low7 Config.signature) = 0x44
  decide

theorem assemble_b3_toNat : (assemble c sid h raw).b3.toNat % 128 = h.toNat := withpar_toNat_mod h

theorem assemble_b4_toNat : (assemble c sid h raw).b4.toNat % 128 = raw.toNat / 128 := by
  have := raw.isLt
  show (withpar (0#3 ++ raw.extractLsb' 7 4)).toNat % 128 = _
  rw [withpar_toNat_mod, toNat_append, BitVec.extractLsb'_toNat, Nat.shiftRight_eq_div_pow]
  simp
  omega

theorem assemble_b5_toNat : (assemble c sid h raw).b5.toNat % 128 = raw.toNat % 128 := by
  show (withpar (raw.extractLsb' 0 7)).toNat % 128 = _
  rw [withpar_toNat_mod, BitVec.extractLsb'_toNat]
  rfl

theorem assemble_accepted : ∃ r, validate (assemble c sid h raw) = .ok r := by
  rw [assemble_eq_packetOfFreeBits]
  exact validate_accepts_packetOfFreeBits ..

theorem channelOf_assemble : channelOf (assemble c sid h raw) = c := by
  have := sid.isLt
  apply BitVec.eq_of_toNat_eq
  rw [channelOf_toNat, assemble_b0_toNat]
  omega

theorem sensorIdOf_assemble : sensorIdOf (assemble c sid h raw) = sid := by
  have := sid.isLt
  apply BitVec.eq_of_toNat_eq
  rw [sensorIdOf_toNat, assemble_b0_toNat, assemble_b1_toNat]
  omega

theorem humidityOf_assemble : humidityOf (assemble c sid h raw) = h := low7_withpar h

theorem temperatureRawOf_assemble : temperatureRawOf (assemble c sid h raw) = raw := by
  have := raw.isLt
  have hb4 := assemble_b4_toNat c sid h raw
  apply BitVec.eq_of_toNat_eq
  rw [temperatureRawOf_toNat, assemble_b5_toNat]
  omega

/-- VALIDATE gives back the fields that ASSEMBLE was given (43_encoder.md R114). -/
theorem validate_assemble : validate (assemble c sid h raw) = .ok
    { channel := c, sensorId := sid, humidityPercent := h, temperatureRaw := raw, tempC10 := tempC10 raw
      tempF100 := tempF100 raw, signatureByte := 0x44 } := by
  obtain ⟨r, hr⟩ := assemble_accepted c sid h raw
  obtain ⟨-, -, -, -, -, -, rfl⟩ := (validate_ok_iff _ _).mp hr
  rw [hr, extract, channelOf_assemble, sensorIdOf_assemble, humidityOf_assemble, temperatureRawOf_assemble, assemble_b2]

end

end Sys2Proof.Machine

namespace Sys2Proof.Safety

open Sys2Proof.Machine

theorem nextsSinceRestart_eq_foldl (ops : List Instr) : nextsSinceRestart ops = ops.foldl countAfter 0 := rfl

/-- A run of ENC_NEXTs and ENC_RESTARTs from a count: each operation answers for the count it is issued at. -/
theorem runOps_from_count (p : Packet) {ops : List Instr} (hops : ∀ i ∈ ops, i = .encNext ∨ i = .encRestart)
    {k : Nat} {s : State} (he : s.enc = sequencerAt p k) :
    ∃ rs t, runOps ops s = .next (rs, t) ∧ rs.length = ops.length ∧
      (∀ n i, ops[n]? = some i → rs[n]? = some (replayAnswer p ((ops.take n).foldl countAfter k) i)) ∧
      t.dec = s.dec ∧ t.enc = sequencerAt p (ops.foldl countAfter k) := by
  induction ops generalizing k s with
  | nil => exact ⟨[], s, runOps_nil s, rfl, by simp, rfl, he⟩
  | cons i ops ih =>
    obtain ⟨hi, hrest⟩ := List.forall_mem_cons.mp hops
    obtain ⟨rs, t, hrun, hlen, hanswers, hdec, henc⟩ :=
      ih hrest (s := (s.withEnc (sequencerAt p (countAfter k i))).respond (replayAnswer p k i)) rfl
    refine ⟨_, t, runOps_cons_next (exec_of_sequencerAt hi he) hrun, by simp [hlen], fun n j hj => ?_, hdec, henc⟩
    cases n with
    | zero =>
      obtain rfl : i = j := by simpa using hj
      rfl
    | succ n => simpa using hanswers n j (by simpa using hj)

/-- Settles O27: VALIDATE gives back the fields of an assembled packet, and the decoder gives back any packet. -/
theorem assembledFieldsSurviveTransmission : Obligations.AssembledFieldsSurviveTransmission := by
  intro c sid h raw s
  obtain ⟨d, hfeed, hdone, hframe⟩ := encodedFrameIsDecoded (assemble c sid h raw)
  have hget := exec_getframe_of_done (s := { s with dec := d }) hdone
  rw [hframe] at hget
  exact ⟨_, d, _, exec_assemble c sid h raw s, hfeed, hget, exec_validate_iff.mpr (validate_assemble c sid h raw),
    rfl, rfl, rfl, rfl, rfl, rfl, rfl⟩

/-- Settles O36: the preamble, the pairs of the data bits, and the two last elements. -/
theorem encodeListsTheTransmission : Obligations.EncodeListsTheTransmission := by
  intro p s
  refine ⟨_, exec_encode p s, encodePulses_length p, fun j hj => encodePulses_syncPair p hj, fun n hn => ?_,
    encodePulses_tail p 0, encodePulses_tail p 1, maxPulse_lt_idleGap⟩
  rw [Packet.getLsbD_toBits p ⟨n, hn⟩]
  exact encodePulses_bitPair p ⟨n, hn⟩

/-- Settles O37: the parts of the list add up, and its pairs name the data bits. -/
theorem encodeDurationAndInjectivity : Obligations.EncodeDurationAndInjectivity := by
  refine ⟨fun p s => ⟨_, exec_encode p s, ?_⟩, fun p q _ h => encodePulses_injective ?_⟩
  · rw [encodePulses_sum, packetBits_countP]
  · simpa [exec_encode] using h

/-- Settles O38: what ENC_LOAD answers in every state. -/
theorem encLoadStartsTheSequence : Obligations.EncLoadStartsTheSequence := exec_encLoad

/-- Settles O39: the cases of ENC_NEXT, and the element as one of the list. -/
theorem encNextHandsOutTheElement : Obligations.EncNextHandsOutTheElement := fun _ =>
  ⟨fun hl hi => ⟨_, _, rfl, exec_encNext_of_elementLeft hl hi,
      encodePulses_getElem? _ ⟨_, Nat.lt_succ_of_le hi⟩, levelOf_eq_high_iff _, decide_eq_true_iff⟩,
    exec_encNext_of_noElementLeft⟩

/-- Settles O40: what ENC_RESTART answers in every state. -/
theorem encRestartReturnsToElementZero : Obligations.EncRestartReturnsToElementZero := exec_encRestart

/-- Settles O41: ENC_LOAD starts the count, and the run goes on from it. -/
theorem sequencerReplaysTheLoadedPacket : Obligations.SequencerReplaysTheLoadedPacket := by
  intro p s ops hops
  obtain ⟨rs, t, hrun, hlen, hanswers, hdec, henc⟩ :=
    runOps_from_count p hops (k := 0) (s := (s.withEnc (loadPacket p)).respond .none) (loadPacket_eq p)
  simp only [← nextsSinceRestart_eq_foldl] at hanswers henc
  refine ⟨_, t, runOps_cons_next (exec_encLoad p s) hrun, by simp [hlen], rfl, fun n hn => hanswers n _ hn,
    fun n hn hk => ?_, fun n hn hk => ?_, hdec, congrArg Encoder.pkt henc, congrArg Encoder.loaded henc,
    congrArg (fun e => e.idx.val) henc⟩
  · rw [← currentElement_sequencerAt_of_ge p hk]
    exact hanswers n _ hn
  · have helem := currentElement_sequencerAt_of_lt p hk
    exact ⟨_, (hanswers n _ hn).trans (congrArg (fun e => some (Response.element e)) helem),
      encodePulses_getElem? p ⟨_, hk⟩, levelOf_eq_high_iff _, decide_eq_true_iff⟩

/-- Settles O42: byte by byte; what `withpar` gives is good, and byte 6 is the sum. -/
theorem assembleBuildsThePacket : Obligations.AssembleBuildsThePacket := by
  intro c sid h raw s
  obtain ⟨hparities, -⟩ := (validate_accepts_iff _).mp (assemble_accepted c sid h raw)
  exact ⟨_, exec_assemble c sid h raw s, assemble_b0_toNat c sid h raw, assemble_b1_toNat c sid h raw,
    assemble_b2 c sid h raw, assemble_b3_toNat c sid h raw, assemble_b4_toNat c sid h raw,
    assemble_b5_toNat c sid h raw, fun i hlow hhigh => exec_parity_iff.mpr (hparities i hlow hhigh),
    BitVec.toNat_ofNat _ _⟩

end Sys2Proof.Safety

/-! SUPPORT and settlement. What a rejection says of the FEED that answers it: its state, its cause and what its
duration or the place in the storage must be (60_exceptions.md R121, R126). -/

namespace Sys2Proof.Machine

/-- A head is rejected only for its length (41_decoder.md R74). -/
theorem tooLong_of_headDispatch_rejected {x : Nat} {d d' : Decoder} {c : Cause}
    (h : headDispatch x d = (.rejected c, d')) : 1201 ≤ x := by
  by_contra hx
  obtain ⟨hlong, -⟩ | ⟨-, -, e⟩ | ⟨-, -, -, e⟩ | ⟨-, -, -, e⟩ | ⟨-, -, -, e⟩ | ⟨-, e⟩ := headDispatch_cases x d
  · exact hx hlong
  all_goals cases e.symm.trans h

/-- A sync tail that is read again as a head is too short to be rejected there (60_exceptions.md R126). -/
theorem syncTailOutOfRange_of_syncTail_rejected {x : Nat} {d d' : Decoder} {c : Cause}
    (h : syncTail x d = (.rejected c, d')) : 671 ≤ x ∧ c = .syncTailOutOfRange := by
  by_cases hlong : 671 ≤ x
  · cases (syncTail_long d hlong).symm.trans h
    exact ⟨hlong, rfl⟩
  by_cases hshort : x ≤ 499
  · have := tooLong_of_headDispatch_rejected ((syncTail_short d hshort).symm.trans h)
    omega
  · cases (syncTail_inRange d (by omega) (by omega)).symm.trans h

theorem bufferOverflow_of_append_rejected {v : Bool} {d d' : Decoder} {c : Cause}
    (h : append v d = (.rejected c, d')) : c = .bufferOverflow := by
  obtain ⟨hi, hb⟩ := append_rejected h
  cases (append_overflow hb hi).symm.trans h
  rfl

/-- The state a rejected FEED starts in decides the cause (60_exceptions.md R126), with the exact condition of each
cause (60_exceptions.md R121). -/
theorem feed_rejected_cases {x : Nat} {d d' : Decoder} {c : Cause} (h : feed x d = some (.rejected c, d')) :
    ((d.state = .unknown ∨ d.state = .awaitingHead) ∧ 1201 ≤ x ∧ c = .tooLongPulse) ∨
    (d.state = .confirmSync ∧ 671 ≤ x ∧ c = .syncTailOutOfRange) ∨
    (d.state = .rejectPending ∧ c = .prematureDataBit) ∨
    ((d.state = .confirmOne ∨ d.state = .confirmZero) ∧ (d.byteIndex.val = 24 ∧ d.bitCount.val = 7) ∧
      c = .bufferOverflow) := by
  obtain ⟨hst, e⟩ | ⟨hst, e⟩ | ⟨hst, e⟩ | ⟨hst, e⟩ | ⟨hst, e⟩ | ⟨-, e⟩ := feed_cases x d <;>
    have answer := e.symm.trans h
  · have head := Option.some.inj answer
    exact .inl ⟨hst, tooLong_of_headDispatch_rejected head, headDispatch_rejected head⟩
  · exact .inr (.inl ⟨hst, syncTailOutOfRange_of_syncTail_rejected (Option.some.inj answer)⟩)
  · have tail := Option.some.inj answer
    exact .inr (.inr (.inr ⟨.inl hst, append_rejected tail, bufferOverflow_of_append_rejected tail⟩))
  · have tail := Option.some.inj answer
    exact .inr (.inr (.inr ⟨.inr hst, append_rejected tail, bufferOverflow_of_append_rejected tail⟩))
  · cases answer
    exact .inr (.inr (.inl ⟨hst, rfl⟩))
  · cases answer

end Sys2Proof.Machine

namespace Sys2Proof.Safety

open Sys2Proof.Machine

/-- Settles O13: every rejection leaves the reset state, and the cases of a rejected FEED have one cause each. -/
theorem rejectionResetsAndTheStateDecidesTheCause : Obligations.RejectionResetsAndTheStateDecidesTheCause := by
  intro x s t c h hr
  obtain ⟨r, d, hf, rfl⟩ := execFeed_next h
  obtain rfl : r = .rejected c := Response.fed.inj hr
  obtain rfl := feed_rejected hf
  refine ⟨rfl, ?_⟩
  obtain ⟨hst, hx, rfl⟩ | ⟨hst, hx, rfl⟩ | ⟨hst, rfl⟩ | ⟨hst, hplace, rfl⟩ := feed_rejected_cases hf
  · exact ⟨fun _ => ⟨hst, hx⟩, nofun, nofun, nofun⟩
  · exact ⟨nofun, fun _ => ⟨hst, hx⟩, nofun, nofun⟩
  · exact ⟨nofun, nofun, fun _ => hst, nofun⟩
  · exact ⟨nofun, nofun, nofun, fun _ => ⟨hst, hplace⟩⟩

end Sys2Proof.Safety

/-! SUPPORT and settlement. When a run of operations has an outcome (70_reset_and_hazards.md R152). -/

namespace Sys2Proof.Safety

open Sys2Proof.Machine

/-- An operation has an outcome unless it is a FEED in `Done` (41_decoder.md R83). -/
theorem exec_answers_iff {i : Instr} {s : State} :
    (∃ t, exec i s = .next t) ↔ ∀ d, i = .feed d → s.dec.state ≠ .done := by
  constructor
  · rintro ⟨t, ht⟩ d rfl hdone
    cases (execFeed_of_none (feed_done hdone)).symm.trans ht
  · intro h
    obtain ⟨f, hf⟩ | ⟨d, rfl⟩ | rfl | ⟨p, rfl⟩ | rfl | rfl := exec_kinds i
    · exact ⟨_, hf s⟩
    · obtain ⟨_, _, hfeed⟩ := feed_of_ne_done d (h d rfl)
      exact ⟨_, execFeed_of_some hfeed⟩
    · exact ⟨_, exec_reset s⟩
    · exact ⟨_, exec_encLoad p s⟩
    · exact ⟨_, exec_encNext s⟩
    · exact ⟨_, exec_encRestart s⟩

/-- A run that answers has run its first operation and gone on from that state: the inversion of
`runOps_cons_next`. -/
theorem runOps_cons_next_cases {i : Instr} {ops : List Instr} {s : State} {r : List Response × State}
    (h : runOps (i :: ops) s = .next r) : ∃ t, exec i s = .next t ∧ ∃ q, runOps ops t = .next q := by
  cases hi : exec i s with
  | fault _ | refused _ => simp [runOps, hi] at h
  | next t =>
    cases hops : runOps ops t with
    | fault _ | refused _ => simp [runOps, hi, hops] at h
    | next q => exact ⟨t, rfl, q, hops⟩

/-- No FEED of a run is issued in `Done`: wherever the operations before a FEED lead, it is not there. -/
def FeedsOutsideDone (ops : List Instr) (s : State) : Prop :=
  ∀ pre d post, ops = pre ++ Instr.feed d :: post →
    ∀ rs t, runOps pre s = .next (rs, t) → t.dec.state ≠ .done

theorem feedsOutsideDone_nil (s : State) : FeedsOutsideDone [] s := fun pre _ _ h =>
  absurd h.symm (List.append_ne_nil_of_right_ne_nil pre (List.cons_ne_nil _ _))

/-- A FEED of a run is its first operation, issued at the start, or one of the rest, issued from the state after the
first. -/
theorem feedsOutsideDone_cons {i : Instr} {ops : List Instr} {s : State} :
    FeedsOutsideDone (i :: ops) s ↔
      (∀ d, i = .feed d → s.dec.state ≠ .done) ∧ ∀ t, exec i s = .next t → FeedsOutsideDone ops t := by
  constructor
  · intro h
    refine ⟨?_, ?_⟩
    · rintro d rfl
      exact h [] d ops rfl [] s (runOps_nil s)
    · rintro t hi pre d post rfl rs u hpre
      exact h (i :: pre) d post rfl _ u (runOps_cons_next hi hpre)
  · rintro ⟨hfirst, hrest⟩ pre d post hops rs u hpre
    cases pre with
    | nil =>
      cases hops
      cases hpre
      exact hfirst d rfl
    | cons j pre =>
      cases hops
      obtain ⟨t, hi, ⟨qs, v⟩, hq⟩ := runOps_cons_next_cases hpre
      cases (runOps_cons_next hi hq).symm.trans hpre
      exact hrest t hi pre d post rfl qs u hq

theorem runOps_answers_iff (ops : List Instr) (s : State) :
    (∃ r, runOps ops s = .next r) ↔ FeedsOutsideDone ops s := by
  induction ops generalizing s with
  | nil => exact iff_of_true ⟨_, runOps_nil s⟩ (feedsOutsideDone_nil s)
  | cons i ops ih =>
    rw [feedsOutsideDone_cons, ← exec_answers_iff]
    constructor
    · rintro ⟨r, hr⟩
      obtain ⟨t, hi, hops⟩ := runOps_cons_next_cases hr
      refine ⟨⟨t, hi⟩, fun u hu => ?_⟩
      cases hi.symm.trans hu
      exact (ih t).mp hops
    · rintro ⟨⟨t, hi⟩, hrest⟩
      obtain ⟨⟨qs, u⟩, hq⟩ := (ih t).mpr (hrest t hi)
      exact ⟨_, runOps_cons_next hi hq⟩

/-- Settles O28, by induction on the operations: the first is no FEED in `Done`, and the rest run from its outcome. -/
theorem runIsDefinedExactlyWithoutFeedInDone : Obligations.RunIsDefinedExactlyWithoutFeedInDone :=
  runOps_answers_iff

end Sys2Proof.Safety
